-- ==== Sys2Proof/Word.lean ====
section
/-! DEFINITION. The word types of the block (spec/00_scope.md R17, R18): every value is unsigned. -/

namespace Sys2Proof

/-- A byte, `u8` (R18). -/
abbrev Byte := BitVec 8

/-- A byte sequence, indexed from 0 (R18, R100). -/
abbrev Bytes := List Byte

/-- `u16` (R17). -/
abbrev U16 := BitVec 16

/-- `u32` (R17). -/
abbrev U32 := BitVec 32

end Sys2Proof
end

