-- ==== Sys2Proof/Machine/Bytes.lean ====
section
/-! DEFINITION. Byte sequences: the only memories of the block (spec/20_memory.md R100), their slices, byte order and
access primitives (spec/00_scope.md R18 to R20). -/

namespace Sys2Proof

/-- `zeros(n)` (R18). -/
def zeros (n : Nat) : Bytes := List.replicate n 0

/-- `B[i .. j)`, clipped to the length of `B` (R18). -/
def slice (B : Bytes) (i j : Nat) : Bytes := (B.take j).drop i

/-- `be_N(v)`: byte 0 is `v[8N-1:8N-8]`, byte `N-1` is `v[7:0]` (R19). -/
def be : Nat → Nat → Bytes
  | 0, _ => []
  | n + 1, v => BitVec.ofNat 8 (v / 256 ^ n) :: be n v

/-- `from_be(S) = Σ S[k]·256^(len(S)-1-k)` (R19). -/
def fromBe : Bytes → Nat
  | [] => 0
  | b :: S => b.toNat * 256 ^ S.length + fromBe S

/-- `MemRead(B, off, n)` (R20). The spec defines it when `off + n ≤ len(B)`; the block makes no other read
(log 16). -/
def memRead (B : Bytes) (off n : Nat) : Nat := fromBe (slice B off (off + n))

/-- `MemWrite(B, off, n, v)`: `B` with `B[off .. off+n)` replaced by `be_n(v)` (R20). The spec defines it when
`off + n ≤ len(B)` and `v < 256^n`; the block makes no other write (log 16). -/
def memWrite (B : Bytes) (off n v : Nat) : Bytes := B.take off ++ be n v ++ B.drop (off + n)

/-- Byte `i` of `B`, and 0 past its end, where no rule reads one (R18). -/
def byteAt (B : Bytes) (i : Nat) : Byte := B.getD i 0

end Sys2Proof
end

