-- ==== Sys2Proof/Config.lean ====
section
/-! DEFINITION. What an implementation fixes (spec/00_scope.md R7 to R14, spec/10_state.md R68) and the one free
value, the decode timestamp (R15, R309). -/

namespace Sys2Proof

/-- A decode timestamp (R15): an opaque value that only passes through. DESIGN CHOICE (log 4): it is held as an
uninterpreted token; nothing compares, orders or computes with it. -/
structure Time where
  token : Nat
  deriving DecidableEq, Repr, Inhabited

/-- Which encoder input sets `frame_flags` bit 4 (R10). -/
inductive Flag4On where
  | extended
  | fd
  | never
  deriving DecidableEq, Repr

/-- The receive-side structure (R11). -/
inductive ReaderMode where
  | streamLoop
  | datagramAtomic
  deriving DecidableEq, Repr

/-- The configuration record (R68), fixed at construction. -/
structure Config where
  /-- `TAG_BYTES` (R7). -/
  tagBytes : Nat
  /-- `ID_BITS` (R9). -/
  idBits : Nat
  /-- `FLAG4_ON` (R10). -/
  flag4On : Flag4On
  /-- `READER_MODE` (R11). -/
  readerMode : ReaderMode
  /-- `CHUNK_BYTES` (R12). -/
  chunkBytes : Nat
  /-- The transmit endpoint (R14); no rule reads it. -/
  sendHost : String
  sendPort : Nat
  /-- The receive endpoint (R14); no rule reads it. -/
  recvHost : String
  recvPort : Nat
  deriving DecidableEq, Repr

/-- The legal configurations: step 1 of `CONSTRUCT` (spec/70_reset_and_hazards.md R600). The two enumerations are
legal by their types. -/
abbrev Config.Legal (c : Config) : Prop :=
  (c.tagBytes = 4 ∨ c.tagBytes = 8) ∧ (c.idBits = 28 ∨ c.idBits = 29) ∧ 1 ≤ c.chunkBytes

/-- The default configuration (R7, R9 to R12). DESIGN CHOICE (log 5): the spec gives no default endpoint; the empty
name and port 0 stand there, and no rule reads them. -/
def Config.std : Config where
  tagBytes := 4
  idBits := 28
  flag4On := .extended
  readerMode := .streamLoop
  chunkBytes := 1024
  sendHost := ""
  sendPort := 0
  recvHost := ""
  recvPort := 0

/-- The value the environment's time source gives to the `n`-th `Now()` draw (R23, R309). A free value: it has no
body, and nothing is assumed of it (log 4). -/
opaque Config.timeDraw : Nat → Time

end Sys2Proof
end

