-- ==== Sys2Proof/Syntax.lean ====
section
/-! DEFINITION. The operands and the instructions of the block: one constructor of `Instr` per row of
spec/opcode_table.json. R2: the instruction set is the command-port operations and the wire frame kinds. -/

namespace Sys2Proof

/-- A timeout argument (spec/00_scope.md R24). -/
inductive Timeout where
  | none
  | finite
  deriving DecidableEq, Repr

/-- A CAN frame (spec/10_state.md R61). The bounds `arbitration_id < 2^29` and `dlc ≤ 64` are part of
"valid for encode" (R62), not of the type: a descriptor can spell a frame outside them. -/
structure CanFrame where
  arbitrationId : U32
  dlc : Byte
  data : Bytes
  extendedId : Bool
  remoteFrame : Bool
  errorFrame : Bool
  isFd : Bool
  bitrateSwitch : Bool
  timestamp : Option Time
  deriving DecidableEq, Repr

/-- A wire header (spec/10_state.md R63). `reservedTag` is a `u(8·TAG_BYTES)`: its width depends on the
configuration, so it is a natural number that `Instr.wellFormed` bounds (log 14). -/
structure WireHeader where
  packetSize : U16
  frameKind : U16
  reservedTag : Nat
  timestampLow : U32
  timestampHigh : U32
  channel : Byte
  frameSize : Byte
  frameFlags : U16
  frameIdRaw : U32
  deriving DecidableEq, Repr

/-- The instructions. The first twelve are commands (spec/30_encoding.md R184, R185), the last five the frame kinds
the decoder dispatches on (R160, spec/42_decoder.md R305, R306, R308). -/
inductive Instr where
  /-- ENCODE (R250). -/
  | encode (f : CanFrame)
  /-- SEND (R400). -/
  | send (f : CanFrame)
  /-- RECEIVE (R401). -/
  | receive (tmo : Timeout)
  /-- SHUTDOWN (R402). -/
  | shutdown
  /-- IS_REMOTE_REQUEST (R204). -/
  | isRemoteRequest (hdr : Bytes)
  /-- IS_FD_FLAGGED (R205). -/
  | isFdFlagged (hdr : Bytes)
  /-- IS_BITRATE_SWITCH (R206). -/
  | isBitrateSwitch (hdr : Bytes)
  /-- IS_ERROR_STATE (R207). -/
  | isErrorState (hdr : Bytes)
  /-- IS_EXTENDED_ID (R208). -/
  | isExtendedId (hdr : Bytes)
  /-- ID (R209). -/
  | getId (hdr : Bytes)
  /-- SUMMARY (R210). -/
  | summary (hdr : Bytes)
  /-- ILLEGAL (R185): an empty command, or one whose opcode is not in the map. -/
  | illegal (cmd : Bytes)
  /-- KIND_CAN_FRAME, 0x0080 (R305). -/
  | kindCanFrame (h : WireHeader)
  /-- KIND_CAN_FRAME_CRC, 0x0081 (R305, R312). -/
  | kindCanFrameCrc (h : WireHeader)
  /-- KIND_CAN_FD_FRAME, 0x0090 (R306). -/
  | kindCanFdFrame (h : WireHeader)
  /-- KIND_CAN_FD_FRAME_CRC, 0x0091 (R306, R312). -/
  | kindCanFdFrameCrc (h : WireHeader)
  /-- KIND_UNKNOWN, any other kind (R308). -/
  | kindUnknown (h : WireHeader)
  deriving DecidableEq, Repr

/-- The two encodings of spec/30_encoding.md: the command port and the wire header. -/
inductive Space where
  | command
  | wire
  deriving DecidableEq, Repr

/-- Which of the two encodings spells an instruction. -/
def Instr.space : Instr → Space
  | .encode _ => .command
  | .send _ => .command
  | .receive _ => .command
  | .shutdown => .command
  | .isRemoteRequest _ => .command
  | .isFdFlagged _ => .command
  | .isBitrateSwitch _ => .command
  | .isErrorState _ => .command
  | .isExtendedId _ => .command
  | .getId _ => .command
  | .summary _ => .command
  | .illegal _ => .command
  | .kindCanFrame _ => .wire
  | .kindCanFrameCrc _ => .wire
  | .kindCanFdFrame _ => .wire
  | .kindCanFdFrameCrc _ => .wire
  | .kindUnknown _ => .wire

end Sys2Proof
end

