-- ==== Sys2Proof/Machine/Header.lean ====
section
/-! DEFINITION. The FrameHeader packer (spec/40_header.md R200 to R203), the constants derived from the configuration
(spec/10_state.md R69) and the frame kinds (spec/30_encoding.md R160). -/

namespace Sys2Proof

/-! The constants the source fixes (spec/00_scope.md R13). -/

/-- `CRC_BYTES` (R13). -/
def crcBytes : Nat := 4

/-- `CLASSIC_WIRE_PAYLOAD` (R13). -/
def classicWirePayload : Nat := 8

/-- `MAX_CLASSIC_DLC` (R13). -/
def maxClassicDlc : Nat := 8

/-- `MAX_FD_DLC` (R13). -/
def maxFdDlc : Nat := 64

/-- `ARB_ID_WIDTH` (R13). -/
def arbIdWidth : Nat := 29

/-! The constants derived from the configuration (R69). -/

/-- `HDR` (R8). -/
def Config.hdrBytes (c : Config) : Nat := 20 + c.tagBytes

/-- `ID_MASK` (R9). -/
def Config.idMask (c : Config) : U32 := BitVec.ofNat 32 (2 ^ c.idBits - 1)

def Config.offTsLow (c : Config) : Nat := 4 + c.tagBytes

def Config.offTsHigh (c : Config) : Nat := 8 + c.tagBytes

def Config.offChannel (c : Config) : Nat := 12 + c.tagBytes

def Config.offSize (c : Config) : Nat := 13 + c.tagBytes

def Config.offFlags (c : Config) : Nat := 14 + c.tagBytes

def Config.offId (c : Config) : Nat := 16 + c.tagBytes

/-- `PackHeader(h)` (R201). -/
def packHeader (c : Config) (h : WireHeader) : Bytes :=
  let B := zeros c.hdrBytes
  let B := memWrite B 0 2 h.packetSize.toNat
  let B := memWrite B 2 2 h.frameKind.toNat
  let B := memWrite B 4 c.tagBytes h.reservedTag
  let B := memWrite B c.offTsLow 4 h.timestampLow.toNat
  let B := memWrite B c.offTsHigh 4 h.timestampHigh.toNat
  let B := memWrite B c.offChannel 1 h.channel.toNat
  let B := memWrite B c.offSize 1 h.frameSize.toNat
  let B := memWrite B c.offFlags 2 h.frameFlags.toNat
  memWrite B c.offId 4 h.frameIdRaw.toNat

/-- `UnpackHeader(B)` (R202). The spec defines it when `len(B) = HDR`, and every caller of the model passes only such
an image. -/
def unpackHeader (c : Config) (B : Bytes) : WireHeader where
  packetSize := BitVec.ofNat 16 (memRead B 0 2)
  frameKind := BitVec.ofNat 16 (memRead B 2 2)
  reservedTag := memRead B 4 c.tagBytes
  timestampLow := BitVec.ofNat 32 (memRead B c.offTsLow 4)
  timestampHigh := BitVec.ofNat 32 (memRead B c.offTsHigh 4)
  channel := BitVec.ofNat 8 (memRead B c.offChannel 1)
  frameSize := BitVec.ofNat 8 (memRead B c.offSize 1)
  frameFlags := BitVec.ofNat 16 (memRead B c.offFlags 2)
  frameIdRaw := BitVec.ofNat 32 (memRead B c.offId 4)

/-- The classes of the four defined kinds (R160). -/
inductive FrameClass where
  | classic
  | fd
  deriving DecidableEq, Repr

/-- `KindClass(k)` (R160): `none` is UNKNOWN. The whole 16-bit value is compared (R164). -/
def kindClass (k : U16) : Option FrameClass :=
  if k = 0x0080#16 then some .classic
  else if k = 0x0081#16 then some .classic
  else if k = 0x0090#16 then some .fd
  else if k = 0x0091#16 then some .fd
  else none

/-- `IsCrcKind(k)`: the two-element set test (spec/42_decoder.md R303). -/
def isCrcKind (k : U16) : Bool := k = 0x0081#16 || k = 0x0091#16

/-- The instruction a header's kind selects (R160, R164). -/
def kindInstr (h : WireHeader) : Instr :=
  if h.frameKind = 0x0080#16 then .kindCanFrame h
  else if h.frameKind = 0x0081#16 then .kindCanFrameCrc h
  else if h.frameKind = 0x0090#16 then .kindCanFdFrame h
  else if h.frameKind = 0x0091#16 then .kindCanFdFrameCrc h
  else .kindUnknown h

end Sys2Proof
end

