-- ==== Sys2Proof/Machine/Flags.lean ====
section
/-! DEFINITION. The flag computations: `frame_flags` and `frame_id_raw` on encode (spec/41_encoder.md R252) and their
readings (spec/30_encoding.md R161, R162). The block keeps no status flag of its own (spec/10_state.md R59). -/

namespace Sys2Proof

/-- `Flag4(f)`: what sets `frame_flags` bit 4 (R252). -/
def flag4 (c : Config) (f : CanFrame) : Bool :=
  match c.flag4On with
  | .extended => f.extendedId
  | .fd => f.isFd
  | .never => false

/-- `m` where `b` holds, else 0. -/
def maskIf {w : Nat} (b : Bool) (m : BitVec w) : BitVec w := if b then m else 0

/-- `frame_flags` of an encoded frame (R252): bit 0 for a classic remote frame, bit 4 by `Flag4`, bit 6 for an error
frame, bit 5 for a bitrate switch. -/
def encodeFlags (c : Config) (f : CanFrame) : U16 :=
  maskIf (!f.isFd && f.remoteFrame) 0x0001#16 ||| maskIf (flag4 c f) 0x0010#16 ||| maskIf f.errorFrame 0x0040#16
    ||| maskIf f.bitrateSwitch 0x0020#16

/-- `frame_id_raw` of an encoded frame (R252): the id unmasked, bit 30 for a classic remote frame, bit 31 for an
extended id. -/
def encodeIdRaw (f : CanFrame) : U32 :=
  f.arbitrationId ||| maskIf (!f.isFd && f.remoteFrame) 0x40000000#32 ||| maskIf f.extendedId 0x80000000#32

/-- `frame_flags` bit 0, remote request (R161, R204). -/
def WireHeader.remoteRequest (h : WireHeader) : Bool := h.frameFlags.getLsbD 0

/-- `frame_flags` bit 4, FD marker (R161, R205). -/
def WireHeader.fdFlagged (h : WireHeader) : Bool := h.frameFlags.getLsbD 4

/-- `frame_flags` bit 5, bitrate switch (R161, R206). -/
def WireHeader.bitrateSwitch (h : WireHeader) : Bool := h.frameFlags.getLsbD 5

/-- `frame_flags` bit 6, error state (R161, R207). -/
def WireHeader.errorState (h : WireHeader) : Bool := h.frameFlags.getLsbD 6

/-- `frame_id_raw` bit 31, extended identifier (R162, R208). -/
def WireHeader.extendedId (h : WireHeader) : Bool := h.frameIdRaw.getLsbD 31

/-- `frame_id_raw & ID_MASK` (R162, R209). -/
def WireHeader.id (c : Config) (h : WireHeader) : U32 := h.frameIdRaw &&& c.idMask

end Sys2Proof
end

