-- ==== Sys2Proof/WellFormed.lean ====
section
/-! DEFINITION. Which instructions have an encoding (spec/30_encoding.md R150, R160, R181 to R186). A frame outside the
data model is well formed: the descriptor spells it, and ENCODE or SEND refuses it (spec/41_encoder.md R251). -/

namespace Sys2Proof

/-- The opcodes of the map (R184). -/
def opcodes : List Byte :=
  [0x01, 0x02, 0x03, 0x04, 0x20, 0x21, 0x22, 0x23, 0x24, 0x25, 0x26]

/-- A frame a descriptor can spell (R181, R186): `dlc` counts the data bytes, and there is no timestamp. -/
def CanFrame.describable (f : CanFrame) : Bool :=
  f.data.length == f.dlc.toNat && f.timestamp == none

/-- A header image of `HDR` bytes (R183). -/
def imageOk (c : Config) (hdr : Bytes) : Bool := hdr.length == c.hdrBytes

/-- A header record whose tag fits its width (spec/10_state.md R63). -/
def WireHeader.tagFits (c : Config) (h : WireHeader) : Bool := h.reservedTag < 256 ^ c.tagBytes

/-- An illegal command (R185): empty, or its opcode is outside the map. -/
def illegalOk : Bytes → Bool
  | [] => true
  | op :: _ => !opcodes.contains op

/-- The instructions that have an encoding under a configuration. -/
def Instr.wellFormed (c : Config) : Instr → Bool
  | .encode f => f.describable
  | .send f => f.describable
  | .receive _ => true
  | .shutdown => true
  | .isRemoteRequest hdr => imageOk c hdr
  | .isFdFlagged hdr => imageOk c hdr
  | .isBitrateSwitch hdr => imageOk c hdr
  | .isErrorState hdr => imageOk c hdr
  | .isExtendedId hdr => imageOk c hdr
  | .getId hdr => imageOk c hdr
  | .summary hdr => imageOk c hdr
  | .illegal cmd => illegalOk cmd
  | .kindCanFrame h => h.tagFits c && h.frameKind == 0x0080#16
  | .kindCanFrameCrc h => h.tagFits c && h.frameKind == 0x0081#16
  | .kindCanFdFrame h => h.tagFits c && h.frameKind == 0x0090#16
  | .kindCanFdFrameCrc h => h.tagFits c && h.frameKind == 0x0091#16
  | .kindUnknown h => h.tagFits c && (kindClass h.frameKind).isNone

end Sys2Proof
end

