-- ==== Sys2Proof/Decode.lean ====
section
/-! DEFINITION. The decoder of both encodings (spec/30_encoding.md), total on any bytes, and after it the encoder. -/

namespace Sys2Proof

/-- Why bytes are no instruction. -/
inductive Reject where
  /-- A legal opcode with malformed operands (R186): the block refuses with BAD_OPERAND. -/
  | badOperand
  /-- A header image whose length is not `HDR` (spec/40_header.md R202): the reader never delivers one. -/
  | badImage
  deriving DecidableEq, Repr

/-- The opcode map (R184). -/
inductive Opcode where
  | encode
  | send
  | receive
  | shutdown
  | isRemoteRequest
  | isFdFlagged
  | isBitrateSwitch
  | isErrorState
  | isExtendedId
  | getId
  | summary
  deriving DecidableEq, Repr

/-- The opcode byte (R184). -/
def Opcode.byte : Opcode → Byte
  | .encode => 0x01
  | .send => 0x02
  | .receive => 0x03
  | .shutdown => 0x04
  | .isRemoteRequest => 0x20
  | .isFdFlagged => 0x21
  | .isBitrateSwitch => 0x22
  | .isErrorState => 0x23
  | .isExtendedId => 0x24
  | .getId => 0x25
  | .summary => 0x26

/-- The opcode map read backwards; `none` is an illegal opcode (R185). -/
def opcodeOf (b : Byte) : Option Opcode :=
  if b = 0x01 then some .encode
  else if b = 0x02 then some .send
  else if b = 0x03 then some .receive
  else if b = 0x04 then some .shutdown
  else if b = 0x20 then some .isRemoteRequest
  else if b = 0x21 then some .isFdFlagged
  else if b = 0x22 then some .isBitrateSwitch
  else if b = 0x23 then some .isErrorState
  else if b = 0x24 then some .isExtendedId
  else if b = 0x25 then some .getId
  else if b = 0x26 then some .summary
  else none

/-- Format `CMD_FRAME` after its opcode (R181): the id big-endian, `dlc`, the flags byte, then exactly `dlc` data
bytes. Flags bits 5 to 7 must be 0 (R186). -/
def decodeFrame : Bytes → Option CanFrame
  | a :: b :: c :: d :: dlc :: fl :: data =>
    if data.length = dlc.toNat ∧ fl.toNat < 32 then
      some {
        arbitrationId := BitVec.ofNat 32 (fromBe [a, b, c, d])
        dlc := dlc
        data := data
        extendedId := fl.getLsbD 0
        remoteFrame := fl.getLsbD 1
        errorFrame := fl.getLsbD 2
        isFd := fl.getLsbD 3
        bitrateSwitch := fl.getLsbD 4
        timestamp := none }
    else none
  | _ => none

/-- Format `CMD_TIMEOUT` after its opcode (R182). -/
def decodeTimeout : Bytes → Option Timeout
  | [t] => if t = 0x00 then some .none else if t = 0x01 then some .finite else none
  | _ => none

/-- Format `CMD_HEADER` after its opcode (R183): exactly `HDR` bytes. -/
def decodeImage (c : Config) (rest : Bytes) : Option Bytes :=
  if rest.length = c.hdrBytes then some rest else none

/-- Format `CMD_NONE` after its opcode (R183): nothing. -/
def decodeNone : Bytes → Option Unit
  | [] => some ()
  | _ => none

/-- The instruction of a legal opcode and its operand bytes, or `none` where they are malformed (R186). -/
def decodeOperands (c : Config) (rest : Bytes) : Opcode → Option Instr
  | .encode => (decodeFrame rest).map .encode
  | .send => (decodeFrame rest).map .send
  | .receive => (decodeTimeout rest).map .receive
  | .shutdown => (decodeNone rest).map fun _ => .shutdown
  | .isRemoteRequest => (decodeImage c rest).map .isRemoteRequest
  | .isFdFlagged => (decodeImage c rest).map .isFdFlagged
  | .isBitrateSwitch => (decodeImage c rest).map .isBitrateSwitch
  | .isErrorState => (decodeImage c rest).map .isErrorState
  | .isExtendedId => (decodeImage c rest).map .isExtendedId
  | .getId => (decodeImage c rest).map .getId
  | .summary => (decodeImage c rest).map .summary

/-- The command decoder (R180 to R186). An illegal opcode decodes to the instruction ILLEGAL, whose meaning is the
refusal of R185; malformed operands are rejected by name. -/
def decodeCommand (c : Config) : Bytes → Except Reject Instr
  | [] => .ok (.illegal [])
  | op :: rest =>
    match opcodeOf op with
    | none => .ok (.illegal (op :: rest))
    | some o =>
      match decodeOperands c rest o with
      | some i => .ok i
      | none => .error .badOperand

/-- The wire decoder: the header image selects a frame kind (R150, R160, R164). -/
def decodeHeader (c : Config) (image : Bytes) : Except Reject Instr :=
  if image.length = c.hdrBytes then .ok (kindInstr (unpackHeader c image)) else .error .badImage

/-- The decoder of either encoding. -/
def decode (c : Config) : Space → Bytes → Except Reject Instr
  | .command, bytes => decodeCommand c bytes
  | .wire, bytes => decodeHeader c bytes

/-! The encoder, from the same tables. -/

/-- The flags byte `fl` of a descriptor (R181). -/
def CanFrame.flagByte (f : CanFrame) : Byte :=
  (if f.extendedId then 0x01 else 0) ||| (if f.remoteFrame then 0x02 else 0) ||| (if f.errorFrame then 0x04 else 0)
    ||| (if f.isFd then 0x08 else 0) ||| (if f.bitrateSwitch then 0x10 else 0)

/-- A frame descriptor without its opcode (R181). -/
def encodeFrame (f : CanFrame) : Bytes :=
  be 4 f.arbitrationId.toNat ++ [f.dlc, f.flagByte] ++ f.data

/-- The timeout byte (R182). -/
def Timeout.byte : Timeout → Byte
  | .none => 0x00
  | .finite => 0x01

/-- The bytes of an instruction (R150, R180 to R185). -/
def encode (c : Config) : Instr → Bytes
  | .encode f => Opcode.encode.byte :: encodeFrame f
  | .send f => Opcode.send.byte :: encodeFrame f
  | .receive tmo => [Opcode.receive.byte, tmo.byte]
  | .shutdown => [Opcode.shutdown.byte]
  | .isRemoteRequest hdr => Opcode.isRemoteRequest.byte :: hdr
  | .isFdFlagged hdr => Opcode.isFdFlagged.byte :: hdr
  | .isBitrateSwitch hdr => Opcode.isBitrateSwitch.byte :: hdr
  | .isErrorState hdr => Opcode.isErrorState.byte :: hdr
  | .isExtendedId hdr => Opcode.isExtendedId.byte :: hdr
  | .getId hdr => Opcode.getId.byte :: hdr
  | .summary hdr => Opcode.summary.byte :: hdr
  | .illegal cmd => cmd
  | .kindCanFrame h => packHeader c h
  | .kindCanFrameCrc h => packHeader c h
  | .kindCanFdFrame h => packHeader c h
  | .kindCanFdFrameCrc h => packHeader c h
  | .kindUnknown h => packHeader c h

/-! The opcode table's words (log 11). A command row has 8 bits, the opcode byte; a wire-kind row has 16 bits, the
`frame_kind` field as one 16-bit word, which the hardware stores big-endian (R103, R164). Every bit above is 0. -/

/-- The first `n` bytes of `w`, the least significant first. -/
def tableBytes : Nat → Nat → Bytes
  | 0, _ => []
  | n + 1, w => BitVec.ofNat 8 w :: tableBytes n (w / 256)

/-- The length the format of a command fixes (R181 to R183, R186), from the bytes at hand and zeros after them. -/
def commandLength (c : Config) (bytes : Bytes) : Nat :=
  match opcodeOf (byteAt bytes 0) with
  | none => bytes.length
  | some .encode => 7 + (byteAt bytes 5).toNat
  | some .send => 7 + (byteAt bytes 5).toNat
  | some .receive => 2
  | some .shutdown => 1
  | some .isRemoteRequest => 1 + c.hdrBytes
  | some .isFdFlagged => 1 + c.hdrBytes
  | some .isBitrateSwitch => 1 + c.hdrBytes
  | some .isErrorState => 1 + c.hdrBytes
  | some .isExtendedId => 1 + c.hdrBytes
  | some .getId => 1 + c.hdrBytes
  | some .summary => 1 + c.hdrBytes

/-- A table word as a command: its bytes, then zeros up to the length its format fixes. -/
def tableCommand (c : Config) (nbits w : Nat) : Bytes :=
  let bytes := tableBytes (nbits / 8) w
  bytes ++ zeros (commandLength c bytes - bytes.length)

/-- A table word as a header image whose `frame_kind` is the word and whose other fields are 0. -/
def tableHeader (c : Config) (w : Nat) : Bytes := memWrite (zeros c.hdrBytes) 2 2 (w % 65536)

/-- Which encoding a row of the table belongs to: the rows of 16 bits are the wire kinds. -/
def tableSpace (nbits : Nat) : Space := if nbits = 16 then .wire else .command

/-- The instruction the decoder reads from a table word, at the default configuration. -/
def decodeTableWord (nbits w : Nat) : Option Instr :=
  match tableSpace nbits with
  | .wire => (decode Config.std .wire (tableHeader Config.std w)).toOption
  | .command => (decode Config.std .command (tableCommand Config.std nbits w)).toOption

end Sys2Proof
end

