-- ==== Sys2Proof/Machine/State.lean ====
section
/-! DEFINITION. The state of the block (spec/10_state.md): the tuple of R51, the configuration of R68, the ports of R70
as plain data, and the records of an operation in progress. -/

namespace Sys2Proof.Machine

/-- The lifecycle (R54). -/
inductive Life where
  | opened
  | closed
  deriving DecidableEq, Repr

/-- The fault codes (spec/60_exceptions.md R502). -/
inductive FaultCode where
  | socket
  | classicSize
  | fdSize
  | closed
  deriving DecidableEq, Repr

/-- The refusal reasons (spec/60_exceptions.md R503). -/
inductive RefuseReason where
  | illegalOpcode
  | badOperand
  | encodePrecond
  deriving DecidableEq, Repr

/-- The "no frame" reasons (spec/60_exceptions.md R501). -/
inductive NoFrameReason where
  | timeout
  | unknownKind
  | underflow
  deriving DecidableEq, Repr

/-- A warning (R56). -/
inductive Warning where
  | unknownKind (k : U16)
  | underflow (got need : Nat)
  deriving DecidableEq, Repr

/-- The value of an `Ok` result (R65). A string is its list of ASCII characters (log 13). -/
inductive Value where
  | bytes (b : Bytes)
  | frame (g : CanFrame)
  | bool (b : Bool)
  | word (v : U32)
  | text (s : List Char)
  | unit
  deriving DecidableEq, Repr

/-- An operation's result (R65, spec/60_exceptions.md R500). -/
inductive Result where
  | ok (v : Value)
  | noFrame (r : NoFrameReason)
  | fault (c : FaultCode)
  | refused (r : RefuseReason)
  deriving DecidableEq, Repr

/-- An answer of the receive port (spec/00_scope.md R23, spec/43_reader.md R351). -/
inductive RxAnswer where
  | dgram (d : Bytes)
  | timedOut
  | sockErr
  deriving DecidableEq, Repr

/-- An answer of the transmit port (spec/00_scope.md R23, spec/44_bus.md R400). -/
inductive TxAnswer where
  | sent
  | sockErr
  deriving DecidableEq, Repr

/-- The operation in progress (log 7). Between operations it is `idle`; the records it carries are the transient
records of R59 and R64. -/
inductive Activity where
  /-- No operation is in progress. -/
  | idle
  /-- A SEND whose transmit the environment has not answered (R400). -/
  | sending (f : CanFrame)
  /-- A RECEIVE whose header read, or whose one datagram, the environment has not yet delivered (R301, R302). -/
  | receiving (tmo : Timeout)
  /-- A decode in STREAM_LOOP mode whose header image is read (R301), and its payload once that is read. -/
  | decoding (tmo : Timeout) (hdr : Bytes) (payload : Option Bytes)
  /-- A decode in DATAGRAM_ATOMIC mode of the datagram `d` (R302). -/
  | parsing (d : Bytes)
  deriving DecidableEq, Repr

/-- The state of the block. -/
structure State where
  /-- The configuration, fixed at construction (R68, log 5). -/
  cfg : Config
  /-- The reader buffer (R53). -/
  buf : Bytes
  /-- The lifecycle (R54). -/
  life : Life
  /-- The sticky fault mark (R55). -/
  fault : Option FaultCode
  /-- The sticky refusal mark (R58). -/
  refused : Option RefuseReason
  /-- Every datagram transmitted, in issue order (R57). -/
  txlog : List Bytes
  /-- The warning output (R56). -/
  warnlog : List Warning
  /-- The command port, in: commands issued and not yet taken, oldest first (R70, R180; the model's own, log 1). -/
  commands : List Bytes
  /-- The command port, out: every result answered, oldest first (R65, R70; the model's own, log 6). -/
  results : List Result
  /-- The answers the receive port will give, in order (R70, R351; the model's own, log 2). -/
  rxAnswers : List RxAnswer
  /-- The answers the transmit port will give, in order (R70, R400; the model's own, log 3). -/
  txAnswers : List TxAnswer
  /-- How many `Now()` draws have been made (R309; the model's own, log 4). -/
  timeDraws : Nat
  /-- The operation in progress (R64, R110; the model's own, log 7). -/
  activity : Activity
  deriving DecidableEq, Repr

/-- Why the block stops with a fault. -/
inductive Fault where
  /-- Raised by `step` on a block whose sticky fault mark is set: no operation has a step (R504). Safe: the spec says
  that nothing runs. -/
  | blockFaulted (c : FaultCode)
  /-- Raised by `construct` when an endpoint cannot be created or bound: `Fault(code)` with the code SOCKET (R502), and no
  usable block exists (spec/70_reset_and_hazards.md R602). Safe: the spec says so. -/
  | endpointFailed (code : FaultCode)
  deriving DecidableEq, Repr

/-- Why the block has no meaning for what it is given. -/
inductive Refusal where
  /-- Answered by `exec` for an instruction without a meaning, by its mnemonic. Safe: no arm uses it. -/
  | notModelled (mnemonic : String)
  /-- Answered by `step` on a block whose sticky refusal mark is set: no operation has a step (R505). Safe: the spec
  says that nothing runs. -/
  | blockRefused (r : RefuseReason)
  /-- Answered by `construct` for a configuration that fails its checks: no block exists
  (spec/70_reset_and_hazards.md R601). Safe: the spec says so. -/
  | illegalConfig
  /-- Answered by the meaning of a frame kind in a state where no RECEIVE is decoding: a kind is not a command
  (spec/42_decoder.md R300). Safe: `step` never runs a kind there (log 9). -/
  | noDecodeInProgress
  /-- Answered by `step` when the header image of the decode in progress is not `HDR` bytes long, where UnpackHeader is
  undefined (spec/40_header.md R202). Safe: no run reaches such a state (log 10). -/
  | badHeaderImage
  deriving DecidableEq, Repr

/-- The block right after a successful construction with configuration `c` (R71). The model's own fields start empty
(DESIGN CHOICE, logs 1, 2, 3, 4, 6 and 7). -/
def State.init (c : Config) : State where
  cfg := c
  buf := []
  life := .opened
  fault := none
  refused := none
  txlog := []
  warnlog := []
  commands := []
  results := []
  rxAnswers := []
  txAnswers := []
  timeDraws := 0
  activity := .idle

/-- The state after reset: construction, the block's only reset (R600), at the default configuration (log 5). -/
def State.reset : State := State.init Config.std

end Sys2Proof.Machine
end

