-- ==== Sys2Proof/Machine/Ops.lean ====
section
/-! DEFINITION. The shared operations: ending an operation, raising a fault, refusing, warning (spec/60_exceptions.md),
the host's and the environment's inputs (spec/10_state.md R70), and construction (spec/70_reset_and_hazards.md R600). -/

namespace Sys2Proof.Machine

/-! The numeric codes (R501 to R503). -/

def NoFrameReason.code : NoFrameReason → Byte
  | .timeout => 0x01
  | .unknownKind => 0x02
  | .underflow => 0x03

def FaultCode.code : FaultCode → Byte
  | .socket => 0x01
  | .classicSize => 0x02
  | .fdSize => 0x03
  | .closed => 0x04

def RefuseReason.code : RefuseReason → Byte
  | .illegalOpcode => 0x01
  | .badOperand => 0x02
  | .encodePrecond => 0x03

/-- The operation in progress ends with result `r` (R500): the result is answered on the command port and nothing is
in progress any more. -/
def complete (r : Result) (s : State) : State :=
  { s with results := s.results ++ [r], activity := .idle }

/-- `return Ok(v)` (R22). -/
def returnOk (v : Value) (s : State) : State := complete (.ok v) s

/-- `return NoFrame(reason)` (R22, R501). -/
def returnNoFrame (r : NoFrameReason) (s : State) : State := complete (.noFrame r) s

/-- `raise Fault(code)` (R22, R500, R502): the one operation by which every fault is taken. It sets the sticky mark and
answers the fault; there is no trap entry, no saved state, no handler (R508), and so no return from it (R509). -/
def raiseFault (c : FaultCode) (s : State) : State :=
  complete (.fault c) { s with fault := some c }

/-- `refuse(reason)` (R22, R500, R503). -/
def refuse (r : RefuseReason) (s : State) : State :=
  complete (.refused r) { s with refused := some r }

/-- `Warn(w)` (R23, R56). -/
def warn (w : Warning) (s : State) : State := { s with warnlog := s.warnlog ++ [w] }

/-- The operation stays in progress: the environment has not answered (log 7). -/
def suspend (a : Activity) (s : State) : State := { s with activity := a }

/-- `Now()` (R23, R309): the draw's value. -/
def nowValue (s : State) : Time := Config.timeDraw s.timeDraws

/-- `Now()` (R23, R309): the draw is made. -/
def drawTime (s : State) : State := { s with timeDraws := s.timeDraws + 1 }

/-- What the step does with bytes that are no instruction. Malformed operands refuse with BAD_OPERAND and have no other
effect (spec/30_encoding.md R186). -/
def rejectBytes (r : Reject) (s : State) : Host.Outcome State Fault Refusal :=
  match r with
  | .badOperand => .next (refuse .badOperand s)
  | .badImage => .refused .badHeaderImage

/-! The inputs of the block (R70): they land between steps, at the end of their queues. -/

/-- The host issues a command (R110, R180). -/
def State.issueCommand (cmd : Bytes) (s : State) : State := { s with commands := s.commands ++ [cmd] }

/-- The environment supplies the next answer of the receive port (R351). -/
def State.deliverRx (a : RxAnswer) (s : State) : State := { s with rxAnswers := s.rxAnswers ++ [a] }

/-- The environment supplies the next answer of the transmit port (R400). -/
def State.deliverTx (a : TxAnswer) (s : State) : State := { s with txAnswers := s.txAnswers ++ [a] }

/-- Whether the environment could create or bind an endpoint (R602). -/
inductive EndpointAnswer where
  | made
  | failed
  deriving DecidableEq, Repr

/-- `CONSTRUCT(config)` (R600 to R602): the checks, the transmit endpoint, the receive endpoint, the state of R71
(log 15). A failed endpoint is `Fault(SOCKET)` (R602, spec/60_exceptions.md R502). -/
def construct (c : Config) (tx rx : EndpointAnswer) : Host.Outcome State Fault Refusal :=
  if c.Legal then
    match tx, rx with
    | .failed, _ => .fault (.endpointFailed .socket)
    | .made, .failed => .fault (.endpointFailed .socket)
    | .made, .made => .next (State.init c)
  else .refused .illegalConfig

end Sys2Proof.Machine
end

