-- ==== Sys2Proof/Machine/Operands.lean ====
section
/-! DEFINITION. The operand forms: the header image of `CMD_HEADER` (spec/30_encoding.md R183), the frame descriptor of
`CMD_FRAME` and its validity (spec/10_state.md R62), the answers of the receive port under a timeout argument
(spec/43_reader.md R351), and the number spellings of a text result (spec/40_header.md R211). -/

namespace Sys2Proof.Machine

/-- A header accessor: answer `f` of the unpacked header (R202). An image of another length is a malformed operand
(spec/30_encoding.md R186); the decoder has refused it before (log 10). -/
def onHeader (hdr : Bytes) (f : Config → WireHeader → Value) (s : State) : Host.Outcome State Fault Refusal :=
  if hdr.length = s.cfg.hdrBytes then .next (returnOk (f s.cfg (unpackHeader s.cfg hdr)) s)
  else .next (refuse .badOperand s)

/-- Valid for encode (R62, spec/41_encoder.md R251). -/
def validForEncode (f : CanFrame) : Bool :=
  decide (f.arbitrationId.toNat < 2 ^ arbIdWidth) && f.data.length == f.dlc.toNat
    && decide (f.dlc.toNat ≤ if f.isFd then maxFdDlc else maxClassicDlc)

/-- Which answers the receive port may give under a timeout argument: `TimedOut` only under FINITE (R351). -/
def admits : Timeout → RxAnswer → Bool
  | .none, .timedOut => false
  | .none, .dgram _ => true
  | .none, .sockErr => true
  | .finite, _ => true

/-- A digit character, `0-9a-f` (R211). -/
def digitChar (d : Nat) : Char := ['0', '1', '2', '3', '4', '5', '6', '7', '8', '9', 'a', 'b', 'c', 'd', 'e', 'f'].getD d '0'

/-- The digits of `v` in base `b`, most significant first, before `acc`; no leading zeros, and one zero for zero.
`fuel` bounds how many digits follow the last one. -/
def digits (b : Nat) : Nat → Nat → List Char → List Char
  | 0, v, acc => digitChar (v % b) :: acc
  | fuel + 1, v, acc => if v < b then digitChar v :: acc else digits b fuel (v / b) (digitChar (v % b) :: acc)

/-- `hexlower(v)` of a 32-bit value: at most eight digits (R211). -/
def hexlower (v : U32) : List Char := digits 16 7 v.toNat []

/-- `decimal(v)` of an 8-bit value: at most three digits (R211). -/
def decimal (v : Byte) : List Char := digits 10 2 v.toNat []

end Sys2Proof.Machine
end

