-- ==== Sys2Proof/Machine/Accessors.lean ====
section
/-! DEFINITION. The seven header accessors (spec/40_header.md R204 to R210). They read and write no state of the block
(R109) and run in either lifecycle state (spec/44_bus.md R403). -/

namespace Sys2Proof.Machine

/-- IS_REMOTE_REQUEST (R204). -/
def execIsRemoteRequest (hdr : Bytes) (s : State) : Host.Outcome State Fault Refusal :=
  onHeader hdr (fun _ h => .bool h.remoteRequest) s

/-- IS_FD_FLAGGED (R205). -/
def execIsFdFlagged (hdr : Bytes) (s : State) : Host.Outcome State Fault Refusal :=
  onHeader hdr (fun _ h => .bool h.fdFlagged) s

/-- IS_BITRATE_SWITCH (R206). -/
def execIsBitrateSwitch (hdr : Bytes) (s : State) : Host.Outcome State Fault Refusal :=
  onHeader hdr (fun _ h => .bool h.bitrateSwitch) s

/-- IS_ERROR_STATE (R207). -/
def execIsErrorState (hdr : Bytes) (s : State) : Host.Outcome State Fault Refusal :=
  onHeader hdr (fun _ h => .bool h.errorState) s

/-- IS_EXTENDED_ID (R208). -/
def execIsExtendedId (hdr : Bytes) (s : State) : Host.Outcome State Fault Refusal :=
  onHeader hdr (fun _ h => .bool h.extendedId) s

/-- ID (R209). -/
def execGetId (hdr : Bytes) (s : State) : Host.Outcome State Fault Refusal :=
  onHeader hdr (fun c h => .word (h.id c)) s

/-- The text of SUMMARY (R210). -/
def summaryText (c : Config) (h : WireHeader) : List Char :=
  ['I', 'D', '=', '0', 'x'] ++ hexlower (h.id c) ++ [' ', 'D', 'L', 'C', '='] ++ decimal h.frameSize
    ++ if h.extendedId then [' ', 'E', 'X', 'T', 'E', 'N', 'D', 'E', 'D'] else []

/-- SUMMARY (R210). -/
def execSummary (hdr : Bytes) (s : State) : Host.Outcome State Fault Refusal :=
  onHeader hdr (fun c h => .text (summaryText c h)) s

end Sys2Proof.Machine
end

