-- ==== Sys2Proof/Machine/Encoder.lean ====
section
/-! DEFINITION. The encoder (spec/41_encoder.md R250 to R257). -/

namespace Sys2Proof.Machine

/-- `EncodeHeader(f)` (R252). The frame's timestamp is not read (R256). -/
def encodeHeader (c : Config) (f : CanFrame) : WireHeader where
  packetSize := BitVec.ofNat 16 (c.hdrBytes + if f.isFd then f.dlc.toNat else classicWirePayload)
  frameKind := if f.isFd then 0x0090#16 else 0x0080#16
  reservedTag := 0
  timestampLow := 0
  timestampHigh := 0
  channel := 0
  frameSize := f.dlc
  frameFlags := encodeFlags c f
  frameIdRaw := encodeIdRaw f

/-- `EncodePayload(f)` (R253). -/
def encodePayload (f : CanFrame) : Bytes :=
  if f.isFd then f.data else f.data ++ zeros (classicWirePayload - f.dlc.toNat)

/-- The datagram of a frame: header and payload, no trailer (R254). -/
def encodeDatagram (c : Config) (f : CanFrame) : Bytes := packHeader c (encodeHeader c f) ++ encodePayload f

/-- ENCODE (R250): answer the datagram, or refuse a frame that is not valid for encode (R251). -/
def execEncode (f : CanFrame) (s : State) : Host.Outcome State Fault Refusal :=
  if validForEncode f then .next (returnOk (.bytes (encodeDatagram s.cfg f)) s)
  else .next (refuse .encodePrecond s)

end Sys2Proof.Machine
end

