-- ==== Sys2Proof/Machine/Reader.lean ====
section
/-! DEFINITION. The buffered datagram reader (spec/43_reader.md R350 to R357): one underlying receive, and the loop of
`READ` in STREAM_LOOP mode. -/

namespace Sys2Proof.Machine

/-- How a `READ` ends. `waiting` is no result of the spec's: the environment has given no admissible answer yet, and the
receive blocks (R351, log 2). -/
inductive ReadEnd where
  | bytes (out : Bytes)
  | timedOut
  | sockErr
  | waiting
  deriving DecidableEq, Repr

/-- The loop of `READ(n, to)` (R350) over the buffer and the answers to come: it receives only while fewer than `n`
bytes are buffered, and one receive appends at most `chunk` bytes (R352). An answer that is not admissible under `to`
is not given: the receive blocks (R351). -/
def readLoop (n chunk : Nat) (tmo : Timeout) : Bytes → List RxAnswer → ReadEnd × Bytes × List RxAnswer
  | buf, [] => if n ≤ buf.length then (.bytes (buf.take n), buf.drop n, []) else (.waiting, buf, [])
  | buf, a :: as =>
    if n ≤ buf.length then (.bytes (buf.take n), buf.drop n, a :: as)
    else if admits tmo a then
      match a with
      | .dgram d => readLoop n chunk tmo (buf ++ d.take chunk) as
      | .timedOut => (.timedOut, buf, as)
      | .sockErr => (.sockErr, buf, as)
    else (.waiting, buf, a :: as)

/-- The state after a `READ` that left this buffer and these answers. -/
def setReader (buf : Bytes) (answers : List RxAnswer) (s : State) : State :=
  { s with buf := buf, rxAnswers := answers }

/-- `READ(n, to)` (R350). -/
def readBytes (n : Nat) (tmo : Timeout) (s : State) : ReadEnd × State :=
  let r := readLoop n s.cfg.chunkBytes tmo s.buf s.rxAnswers
  (r.1, setReader r.2.1 r.2.2 s)

/-- One `RxReceive(to)` on its own (R351, R302): the answer and the state after it, or `none` while it blocks. -/
def rxReceive (tmo : Timeout) (s : State) : Option (RxAnswer × State) :=
  match s.rxAnswers with
  | [] => none
  | a :: as => if admits tmo a then some (a, { s with rxAnswers := as }) else none

end Sys2Proof.Machine
end

