-- ==== Sys2Proof/Machine/Kinds.lean ====
section
/-! DEFINITION. The frame kinds: what the decoder does once a header is read (spec/42_decoder.md R301 to R312). Each
kind is one arm of the dispatch on `frame_kind`; the arms run inside a RECEIVE (log 9). -/

namespace Sys2Proof.Machine

/-- `FetchSize(cls, F)` (R304). -/
def fetchSize (cls : FrameClass) (F : Byte) : Nat :=
  match cls with
  | .classic => classicWirePayload
  | .fd => F.toNat

/-- `CheckSize(cls, F)` (R310): the fault it raises, or none. -/
def checkSize (cls : FrameClass) (F : Byte) : Option FaultCode :=
  match cls with
  | .classic => if maxClassicDlc < F.toNat then some .classicSize else none
  | .fd => if maxFdDlc < F.toNat then some .fdSize else none

/-- `BuildFrame(h, cls, p, t)` (R307) with the fields of the classic arm (R305) or the FD arm (R306). -/
def buildFrame (c : Config) (cls : FrameClass) (h : WireHeader) (p : Bytes) (t : Time) : CanFrame :=
  match cls with
  | .classic =>
    { arbitrationId := h.id c, dlc := h.frameSize, data := slice p 0 h.frameSize.toNat, extendedId := h.extendedId
      remoteFrame := h.remoteRequest, errorFrame := false, isFd := false, bitrateSwitch := false
      timestamp := some t }
  | .fd =>
    { arbitrationId := h.id c, dlc := h.frameSize, data := slice p 0 h.frameSize.toNat, extendedId := h.extendedId
      remoteFrame := false, errorFrame := h.errorState, isFd := true, bitrateSwitch := h.bitrateSwitch
      timestamp := some t }

/-- The end of a successful decode: one `Now()` draw, then the frame (R309, R307). -/
def returnFrame (cls : FrameClass) (h : WireHeader) (p : Bytes) (s : State) : State :=
  returnOk (.frame (buildFrame s.cfg cls h p (nowValue s))) (drawTime s)

/-- The CRC stage of R301, or none for a kind without a trailer: the four bytes are read and discarded (R312). -/
def decodeTrailer (cls : FrameClass) (crc : Bool) (h : WireHeader) (tmo : Timeout) (hdr p : Bytes) (s : State) : State :=
  if crc then
    match readBytes crcBytes tmo s with
    | (.bytes _, s) => returnFrame cls h p s
    | (.timedOut, s) => returnNoFrame .timeout s
    | (.sockErr, s) => raiseFault .socket s
    | (.waiting, s) => suspend (.decoding tmo hdr (some p)) s
  else returnFrame cls h p s

/-- The payload stage of R301: read the payload, unless that is already done, then the CRC stage. -/
def decodePayload (cls : FrameClass) (crc : Bool) (h : WireHeader) (tmo : Timeout) (hdr : Bytes) (got : Option Bytes)
    (s : State) : State :=
  match got with
  | some p => decodeTrailer cls crc h tmo hdr p s
  | none =>
    match readBytes (fetchSize cls h.frameSize) tmo s with
    | (.bytes p, s) => decodeTrailer cls crc h tmo hdr p s
    | (.timedOut, s) => returnNoFrame .timeout s
    | (.sockErr, s) => raiseFault .socket s
    | (.waiting, s) => suspend (.decoding tmo hdr none) s

/-- The payload and trailer stages of R302: the datagram must hold them whole. -/
def parseBody (cls : FrameClass) (crc : Bool) (h : WireHeader) (d : Bytes) (s : State) : State :=
  let n := fetchSize cls h.frameSize
  let need := s.cfg.hdrBytes + n + if crc then crcBytes else 0
  if d.length < need then returnNoFrame .underflow (warn (.underflow d.length need) s)
  else returnFrame cls h (slice d s.cfg.hdrBytes (s.cfg.hdrBytes + n)) s

/-- One known kind's arm of the decoder, in either mode: the size check, then the stages of the mode (R301, R302). -/
def decodeArm (cls : FrameClass) (crc : Bool) (h : WireHeader) (s : State) : Host.Outcome State Fault Refusal :=
  match s.activity with
  | .decoding tmo hdr got =>
    match checkSize cls h.frameSize with
    | some c => .next (raiseFault c s)
    | none => .next (decodePayload cls crc h tmo hdr got s)
  | .parsing d =>
    match checkSize cls h.frameSize with
    | some c => .next (raiseFault c s)
    | none => .next (parseBody cls crc h d s)
  | .idle => .refused .noDecodeInProgress
  | .sending _ => .refused .noDecodeInProgress
  | .receiving _ => .refused .noDecodeInProgress

/-- KIND_CAN_FRAME, 0x0080 (R305). -/
def execKindCanFrame (h : WireHeader) (s : State) : Host.Outcome State Fault Refusal :=
  decodeArm .classic (isCrcKind 0x0080#16) h s

/-- KIND_CAN_FRAME_CRC, 0x0081 (R305, R312). -/
def execKindCanFrameCrc (h : WireHeader) (s : State) : Host.Outcome State Fault Refusal :=
  decodeArm .classic (isCrcKind 0x0081#16) h s

/-- KIND_CAN_FD_FRAME, 0x0090 (R306). -/
def execKindCanFdFrame (h : WireHeader) (s : State) : Host.Outcome State Fault Refusal :=
  decodeArm .fd (isCrcKind 0x0090#16) h s

/-- KIND_CAN_FD_FRAME_CRC, 0x0091 (R306, R312). -/
def execKindCanFdFrameCrc (h : WireHeader) (s : State) : Host.Outcome State Fault Refusal :=
  decodeArm .fd (isCrcKind 0x0091#16) h s

/-- The arm of an unknown kind (R308): a warning and no frame; nothing more is read. -/
def dropUnknown (h : WireHeader) (s : State) : State :=
  returnNoFrame .unknownKind (warn (.unknownKind h.frameKind) s)

/-- KIND_UNKNOWN (R308), in either mode. -/
def execKindUnknown (h : WireHeader) (s : State) : Host.Outcome State Fault Refusal :=
  match s.activity with
  | .decoding _ _ _ => .next (dropUnknown h s)
  | .parsing _ => .next (dropUnknown h s)
  | .idle => .refused .noDecodeInProgress
  | .sending _ => .refused .noDecodeInProgress
  | .receiving _ => .refused .noDecodeInProgress

/-- The decoder's dispatch on `frame_kind` (R160, R164, R301, R302). -/
def dispatchKind (h : WireHeader) (s : State) : Host.Outcome State Fault Refusal :=
  if h.frameKind = 0x0080#16 then execKindCanFrame h s
  else if h.frameKind = 0x0081#16 then execKindCanFrameCrc h s
  else if h.frameKind = 0x0090#16 then execKindCanFdFrame h s
  else if h.frameKind = 0x0091#16 then execKindCanFdFrameCrc h s
  else execKindUnknown h s

end Sys2Proof.Machine
end

