-- ==== Sys2Proof/Machine/Bus.lean ====
section
/-! DEFINITION. The bus operations SEND, RECEIVE and SHUTDOWN (spec/44_bus.md R400 to R403), the two forms of DECODE
(spec/42_decoder.md R300 to R302) and the illegal command (spec/30_encoding.md R185). -/

namespace Sys2Proof.Machine

/-- The transmit of SEND: one `TxSend(D)` and its answer (R400). While the environment has not answered, the operation
stays in progress (log 3). -/
def transmit (f : CanFrame) (s : State) : State :=
  match s.txAnswers with
  | [] => suspend (.sending f) s
  | .sent :: as => returnOk .unit { s with txAnswers := as, txlog := s.txlog ++ [encodeDatagram s.cfg f] }
  | .sockErr :: as => raiseFault .socket { s with txAnswers := as }

/-- SEND (R400). -/
def execSend (f : CanFrame) (s : State) : Host.Outcome State Fault Refusal :=
  match s.life with
  | .closed => .next (raiseFault .closed s)
  | .opened => if validForEncode f then .next (transmit f s) else .next (refuse .encodePrecond s)

/-- `DECODE(to)` in STREAM_LOOP mode (R301): the header read, then the dispatch. -/
def decodeStream (tmo : Timeout) (s : State) : Host.Outcome State Fault Refusal :=
  match readBytes s.cfg.hdrBytes tmo s with
  | (.bytes r, s) => dispatchKind (unpackHeader s.cfg r) (suspend (.decoding tmo r none) s)
  | (.timedOut, s) => .next (returnNoFrame .timeout s)
  | (.sockErr, s) => .next (raiseFault .socket s)
  | (.waiting, s) => .next (suspend (.receiving tmo) s)

/-- `DECODE(to)` in DATAGRAM_ATOMIC mode (R302): one receive, then the dispatch on the datagram cut to `CHUNK_BYTES`
bytes (spec/43_reader.md R352). -/
def decodeAtomic (tmo : Timeout) (s : State) : Host.Outcome State Fault Refusal :=
  match rxReceive tmo s with
  | none => .next (suspend (.receiving tmo) s)
  | some (.timedOut, s) => .next (returnNoFrame .timeout s)
  | some (.sockErr, s) => .next (raiseFault .socket s)
  | some (.dgram d0, s) =>
    let d := slice d0 0 s.cfg.chunkBytes
    if d.length < s.cfg.hdrBytes then
      .next (returnNoFrame .underflow (warn (.underflow d.length s.cfg.hdrBytes) s))
    else dispatchKind (unpackHeader s.cfg (slice d 0 s.cfg.hdrBytes)) (suspend (.parsing d) s)

/-- RECEIVE (R401): `DECODE(to)` in the mode of the configuration (R300). -/
def execReceive (tmo : Timeout) (s : State) : Host.Outcome State Fault Refusal :=
  match s.life with
  | .closed => .next (raiseFault .closed s)
  | .opened =>
    match s.cfg.readerMode with
    | .streamLoop => decodeStream tmo s
    | .datagramAtomic => decodeAtomic tmo s

/-- Both endpoints are released and the buffered bytes are lost; a closed block stays as it is (R402). -/
def closeBlock (s : State) : State :=
  match s.life with
  | .opened => { s with life := .closed, buf := [] }
  | .closed => s

/-- SHUTDOWN (R402). -/
def execShutdown (s : State) : Host.Outcome State Fault Refusal := .next (returnOk .unit (closeBlock s))

/-- ILLEGAL (R185). -/
def execIllegal (_cmd : Bytes) (s : State) : Host.Outcome State Fault Refusal := .next (refuse .illegalOpcode s)

end Sys2Proof.Machine
end

