-- ==== Sys2Proof/Machine/Dispatch.lean ====
section
/-! DEFINITION. One arm per instruction. -/

namespace Sys2Proof.Machine

def exec (i : Instr) (s : State) : Host.Outcome State Fault Refusal :=
  match i with
  | .encode f => Sys2Proof.Machine.execEncode f s
  | .send f => Sys2Proof.Machine.execSend f s
  | .receive tmo => Sys2Proof.Machine.execReceive tmo s
  | .shutdown => Sys2Proof.Machine.execShutdown s
  | .isRemoteRequest hdr => Sys2Proof.Machine.execIsRemoteRequest hdr s
  | .isFdFlagged hdr => Sys2Proof.Machine.execIsFdFlagged hdr s
  | .isBitrateSwitch hdr => Sys2Proof.Machine.execIsBitrateSwitch hdr s
  | .isErrorState hdr => Sys2Proof.Machine.execIsErrorState hdr s
  | .isExtendedId hdr => Sys2Proof.Machine.execIsExtendedId hdr s
  | .getId hdr => Sys2Proof.Machine.execGetId hdr s
  | .summary hdr => Sys2Proof.Machine.execSummary hdr s
  | .illegal cmd => Sys2Proof.Machine.execIllegal cmd s
  | .kindCanFrame h => Sys2Proof.Machine.execKindCanFrame h s
  | .kindCanFrameCrc h => Sys2Proof.Machine.execKindCanFrameCrc h s
  | .kindCanFdFrame h => Sys2Proof.Machine.execKindCanFdFrame h s
  | .kindCanFdFrameCrc h => Sys2Proof.Machine.execKindCanFdFrameCrc h s
  | .kindUnknown h => Sys2Proof.Machine.execKindUnknown h s

end Sys2Proof.Machine
end

