-- ==== Sys2Proof/Machine/Fetch.lean ====
section
/-! DEFINITION. Where the next instruction comes from: the operation in progress, or the next command of the host
(spec/20_memory.md R110, spec/10_state.md R52). There is no program counter. -/

namespace Sys2Proof.Machine

/-- What the block finds to do. -/
inductive Fetched where
  /-- No operation is in progress and the host has issued no command: the block waits (spec/70_reset_and_hazards.md
  R600). -/
  | nothing
  /-- An instruction, and the state to run it in. -/
  | instr (i : Instr) (s : State)
  /-- Bytes that are no instruction, and the state to reject them in. -/
  | reject (r : Reject) (s : State)
  deriving DecidableEq, Repr

/-- What decoding answers, as something to do. -/
def fetchedOf (s : State) : Except Reject Instr → Fetched
  | .ok i => .instr i s
  | .error r => .reject r s

/-- The next thing to do. An operation in progress goes on before a command is taken (R110): a waiting SEND or RECEIVE
is tried again, and a decode runs the frame kind its header selects. Otherwise the oldest command is taken from the
port and decoded (R180). -/
def fetch (s : State) : Fetched :=
  match s.activity with
  | .idle =>
    match s.commands with
    | [] => .nothing
    | cmd :: rest => fetchedOf { s with commands := rest } (decode s.cfg .command cmd)
  | .sending f => .instr (.send f) s
  | .receiving tmo => .instr (.receive tmo) s
  | .decoding _ hdr _ => fetchedOf s (decode s.cfg .wire hdr)
  | .parsing d => fetchedOf s (decode s.cfg .wire (slice d 0 s.cfg.hdrBytes))

/-- The state in which a decode of the header image is in progress, in the mode of the configuration, under timeout
NONE. -/
def startDecode (image : Bytes) (s : State) : State :=
  match s.cfg.readerMode with
  | .streamLoop => { s with activity := .decoding .none image none }
  | .datagramAtomic => { s with activity := .parsing image }

/-- Where a table word is placed so that the next step runs it (log 11): a command goes to the head of the command port
with nothing in progress, a wire kind into the header of a decode in progress. -/
def placeWord (nbits w : Nat) (s : State) : State :=
  match tableSpace nbits with
  | .wire => startDecode (tableHeader s.cfg w) s
  | .command => { s with activity := .idle, commands := tableCommand s.cfg nbits w :: s.commands }

end Sys2Proof.Machine
end

