-- ==== Sys2Proof/Machine/Step.lean ====
section
/-! DEFINITION. One step: one instruction of the block (spec/60_exceptions.md R500, R504 to R506). -/

namespace Sys2Proof.Machine

/-- One step. A faulted or refused block has no step (R504, R505, R506 item 1); otherwise the step runs what `fetch`
finds, and a block with nothing to do waits. -/
def step (s : State) : Host.Outcome State Fault Refusal :=
  match s.fault with
  | some c => .fault (.blockFaulted c)
  | none =>
    match s.refused with
    | some r => .refused (.blockRefused r)
    | none =>
      match fetch s with
      | .nothing => .next s
      | .instr i t => exec i t
      | .reject r t => rejectBytes r t

/-- `s` with a table word placed where `step` takes its next instruction (log 11). -/
def State.withFetchWord (s : State) (nbits w : Nat) : State := placeWord nbits w s

end Sys2Proof.Machine
end

