-- ==== Sys2Proof/Machine/Assembler.lean ====
section
/-! DEFINITION. The assembler form of a command (spec/30_encoding.md R187), as a structured line: the mnemonic with its
operands, where `data` and `fl` may be omitted. How the line is printed is left to the reader of R187 (log 18). -/

namespace Sys2Proof

/-- The flag names, in the order of `fl` bits 0 to 4 (R187, R181). -/
inductive FlagName where
  | ext
  | rtr
  | err
  | fd
  | brs
  deriving DecidableEq, Repr

/-- The `fl` bit of a flag name (R187). -/
def FlagName.mask : FlagName → Byte
  | .ext => 0x01
  | .rtr => 0x02
  | .err => 0x04
  | .fd => 0x08
  | .brs => 0x10

/-- A line of assembler (R187). `none` is an omitted operand. -/
inductive AsmLine where
  | encode (id : U32) (dlc : Byte) (data : Option Bytes) (fl : Option (List FlagName))
  | send (id : U32) (dlc : Byte) (data : Option Bytes) (fl : Option (List FlagName))
  | receive (tmo : Timeout)
  | shutdown
  | isRemoteRequest (hdr : Bytes)
  | isFdFlagged (hdr : Bytes)
  | isBitrateSwitch (hdr : Bytes)
  | isErrorState (hdr : Bytes)
  | isExtendedId (hdr : Bytes)
  | getId (hdr : Bytes)
  | summary (hdr : Bytes)
  deriving DecidableEq, Repr

/-- The `fl` byte of a set of flag names (R187). -/
def flagSet (names : List FlagName) : Byte := names.foldl (fun b n => b ||| n.mask) 0

/-- A frame descriptor from the operands of a line: omitted `data` is `[]`, omitted `fl` the empty set (R187). -/
def assembleFrame (id : U32) (dlc : Byte) (data : Option Bytes) (fl : Option (List FlagName)) : Bytes :=
  be 4 id.toNat ++ [dlc, flagSet (fl.getD [])] ++ data.getD []

/-- The command a line spells (R187). -/
def assemble : AsmLine → Bytes
  | .encode id dlc data fl => Opcode.encode.byte :: assembleFrame id dlc data fl
  | .send id dlc data fl => Opcode.send.byte :: assembleFrame id dlc data fl
  | .receive tmo => [Opcode.receive.byte, tmo.byte]
  | .shutdown => [Opcode.shutdown.byte]
  | .isRemoteRequest hdr => Opcode.isRemoteRequest.byte :: hdr
  | .isFdFlagged hdr => Opcode.isFdFlagged.byte :: hdr
  | .isBitrateSwitch hdr => Opcode.isBitrateSwitch.byte :: hdr
  | .isErrorState hdr => Opcode.isErrorState.byte :: hdr
  | .isExtendedId hdr => Opcode.isExtendedId.byte :: hdr
  | .getId hdr => Opcode.getId.byte :: hdr
  | .summary hdr => Opcode.summary.byte :: hdr

end Sys2Proof
end

