-- ==== Sys2Proof/Safety.lean ====
section
/-! DEFINITION. What counts as a safe run, in the terms claims use: the end of a run and its observation
(spec/70_reset_and_hazards.md R612), the host's view of a result (spec/44_bus.md R404), and the invariant that every
step keeps. -/

namespace Sys2Proof.Machine

/-- Neither sticky mark is set (R504, R505). -/
def State.usable (s : State) : Prop := s.fault = none ∧ s.refused = none

/-- A result after which a run may be final (spec/60_exceptions.md R500). -/
def Result.good : Result → Bool
  | .ok _ => true
  | .noFrame _ => true
  | .fault _ => false
  | .refused _ => false

/-- The run has ended well (R612): the host has no further operation to issue, none is in progress, the last outcome was
`Ok` or `NoFrame`, and neither mark is set. -/
def State.endedWell (s : State) : Prop :=
  s.commands = [] ∧ s.activity = .idle ∧ (∃ r, s.results.getLast? = some r ∧ r.good = true) ∧ s.usable

/-- The observation of a run (R612). -/
structure Observation where
  outcomes : List Result
  txlog : List Bytes
  warnlog : List Warning
  life : Life
  buf : Bytes
  deriving DecidableEq, Repr

def State.observation (s : State) : Observation where
  outcomes := s.results
  txlog := s.txlog
  warnlog := s.warnlog
  life := s.life
  buf := s.buf

/-- What the host's interface shows of a RECEIVE that ended without a fault: a frame or none (R404). The reason of a
"no frame" is not shown. -/
def receiveView : Result → Option (Option CanFrame)
  | .ok (.frame g) => some (some g)
  | .noFrame _ => some none
  | .ok (.bytes _) => none
  | .ok (.bool _) => none
  | .ok (.word _) => none
  | .ok (.text _) => none
  | .ok .unit => none
  | .fault _ => none
  | .refused _ => none

/-- What receives of the datagrams `ds`, in order, append to the reader buffer: at most `n` bytes of each
(spec/43_reader.md R352). -/
def chunks (n : Nat) (ds : List Bytes) : Bytes := (ds.map fun d => d.take n).flatten

/-- What every frame a decode returns satisfies (spec/42_decoder.md R313). -/
structure DecodedFrame (c : Config) (g : CanFrame) : Prop where
  length : g.data.length = g.dlc.toNat
  classicBound : g.isFd = false → g.dlc.toNat ≤ 8
  fdBound : g.isFd = true → g.dlc.toNat ≤ 64
  idBound : g.arbitrationId.toNat < 2 ^ c.idBits
  stamped : g.timestamp ≠ none
  fdNotRemote : g.isFd = true → g.remoteFrame = false

/-- What every transmitted datagram satisfies (spec/30_encoding.md R151, R173): its first field is its length, and its
kind is 0x0080 or 0x0090. -/
structure SentDatagram (d : Bytes) : Prop where
  size : d.take 2 = be 2 d.length
  kind : slice d 2 4 = [0x00, 0x80] ∨ slice d 2 4 = [0x00, 0x90]

/-- What the records of an operation in progress satisfy: the block is open, a STREAM_LOOP decode holds a header image
of `HDR` bytes and, once its payload is read, at least `frame_size` payload bytes, and a DATAGRAM_ATOMIC decode holds a
datagram of at least `HDR` bytes. -/
def activityOk (s : State) : Prop :=
  match s.activity with
  | .idle => True
  | .sending _ => s.life = .opened
  | .receiving _ => s.life = .opened
  | .decoding _ hdr got =>
    s.life = .opened ∧ s.cfg.readerMode = .streamLoop ∧ hdr.length = s.cfg.hdrBytes ∧
      ∀ p, got = some p → (unpackHeader s.cfg hdr).frameSize.toNat ≤ p.length
  | .parsing d => s.life = .opened ∧ s.cfg.readerMode = .datagramAtomic ∧ s.cfg.hdrBytes ≤ d.length

/-- The invariant of the block. -/
structure Inv (s : State) : Prop where
  /-- The configuration is legal (R600). -/
  legal : s.cfg.Legal
  /-- The buffer bound (spec/43_reader.md R354). -/
  bufBound : s.buf.length ≤ max (s.cfg.chunkBytes - 1) 63
  /-- No byte is buffered in DATAGRAM_ATOMIC mode (spec/43_reader.md R355). -/
  atomicBuf : s.cfg.readerMode = .datagramAtomic → s.buf = []
  /-- A closed block buffers nothing (spec/44_bus.md R402). -/
  closedBuf : s.life = .closed → s.buf = []
  /-- At most one mark is set: after either there is no step (R504, R505). -/
  oneMark : s.fault = none ∨ s.refused = none
  /-- The operation in progress is one the block could have begun. -/
  active : activityOk s
  /-- Every frame answered is one a decode may return (R313). -/
  frames : ∀ g, .ok (.frame g) ∈ s.results → DecodedFrame s.cfg g
  /-- Every datagram transmitted has the encoder's form (R151, R173). -/
  sent : ∀ d ∈ s.txlog, SentDatagram d

end Sys2Proof.Machine
end

