-- ==== Sys2Proof/Certificates/Slice0/Obligations.lean ====
section
/-! DEFINITION. The statements for the provers. The helpers of `Sys2Proof.Stated` say in the spec's own words, over raw
bytes, what the statements compare the machine with. -/

namespace Sys2Proof.Stated

open Sys2Proof.Machine

/-- Valid for encode, in the words of spec/10_state.md R62. -/
def Valid (f : CanFrame) : Prop :=
  f.arbitrationId.toNat < 2 ^ 29 ∧ f.data.length = f.dlc.toNat ∧
    (f.isFd = false → f.dlc.toNat ≤ 8) ∧ (f.isFd = true → f.dlc.toNat ≤ 64)

/-- What sets `frame_flags` bit 4 (spec/41_encoder.md R252). -/
def flag4Set (c : Config) (f : CanFrame) : Bool :=
  match c.flag4On with
  | .extended => f.extendedId
  | .fd => f.isFd
  | .never => false

/-- `frame_flags` of an encoded frame as a sum of bit values (R252). -/
def flagsSum (c : Config) (f : CanFrame) : Nat :=
  (if f.isFd = false ∧ f.remoteFrame = true then 1 else 0) + (if flag4Set c f = true then 16 else 0)
    + (if f.bitrateSwitch = true then 32 else 0) + if f.errorFrame = true then 64 else 0

/-- `frame_id_raw` of an encoded frame as a sum (R252). -/
def idSum (f : CanFrame) : Nat :=
  f.arbitrationId.toNat + (if f.isFd = false ∧ f.remoteFrame = true then 2 ^ 30 else 0)
    + if f.extendedId = true then 2 ^ 31 else 0

/-- The payload length on the wire (R252, R253). -/
def wirePayload (f : CanFrame) : Nat := if f.isFd = true then f.dlc.toNat else 8

/-- The datagram of a valid frame, field by field in the order of spec/30_encoding.md R150: packet size, kind, tag, both
timestamps and channel zero, frame size, flags, id, payload padded with zeros (R252 to R254). -/
def wireImage (c : Config) (f : CanFrame) : Bytes :=
  be 2 (20 + c.tagBytes + wirePayload f) ++ [0x00, if f.isFd = true then 0x90 else 0x80] ++ zeros (c.tagBytes + 9)
    ++ [f.dlc] ++ be 2 (flagsSum c f) ++ be 4 (idSum f) ++ f.data ++ zeros (wirePayload f - f.dlc.toNat)

/-- A malformed command of a legal opcode (spec/30_encoding.md R186). -/
def Malformed (c : Config) (cmd : Bytes) : Prop :=
  ((byteAt cmd 0 = 0x01 ∨ byteAt cmd 0 = 0x02) ∧
      (cmd.length ≠ 7 + (byteAt cmd 5).toNat ∨ 32 ≤ (byteAt cmd 6).toNat)) ∨
    (byteAt cmd 0 = 0x03 ∧ (cmd.length ≠ 2 ∨ (byteAt cmd 1 ≠ 0x00 ∧ byteAt cmd 1 ≠ 0x01))) ∨
    (byteAt cmd 0 = 0x04 ∧ cmd.length ≠ 1) ∨
    (0x20 ≤ (byteAt cmd 0).toNat ∧ (byteAt cmd 0).toNat ≤ 0x26 ∧ cmd.length ≠ 21 + c.tagBytes)

/-- An opcode outside the map (spec/30_encoding.md R185). -/
def IllegalOpcode (op : Byte) : Prop :=
  op.toNat = 0x00 ∨ (0x05 ≤ op.toNat ∧ op.toNat ≤ 0x1F) ∨ (0x27 ≤ op.toNat ∧ op.toNat ≤ 0xFF)

/-- `frame_kind` of a header image: the 16-bit field at bytes 2 and 3 (R150, R164). -/
def kindOf (hdr : Bytes) : Nat := fromBe (slice hdr 2 4)

/-- `frame_size` of a header image (R150). -/
def frameSizeOf (c : Config) (hdr : Bytes) : Nat := (byteAt hdr (13 + c.tagBytes)).toNat

/-- Bit `i` of the low byte of `frame_flags` of a header image (R150). -/
def flagOf (c : Config) (hdr : Bytes) (i : Nat) : Bool := (byteAt hdr (15 + c.tagBytes)).getLsbD i

/-- `frame_id_raw` bit 31 of a header image (R150). -/
def extendedOf (c : Config) (hdr : Bytes) : Bool := (byteAt hdr (16 + c.tagBytes)).getLsbD 7

/-- `frame_id_raw` of a header image (R150). -/
def idRawOf (c : Config) (hdr : Bytes) : Nat := fromBe (slice hdr (16 + c.tagBytes) (20 + c.tagBytes))

/-- The header, payload and trailer of one whole datagram of a defined kind (R170), within the size bounds of
spec/42_decoder.md R310. -/
def WholeDatagram (c : Config) (hdr p crc : Bytes) : Prop :=
  hdr.length = 20 + c.tagBytes ∧
    ((kindOf hdr = 0x80 ∧ frameSizeOf c hdr ≤ 8 ∧ p.length = 8 ∧ crc = []) ∨
      (kindOf hdr = 0x81 ∧ frameSizeOf c hdr ≤ 8 ∧ p.length = 8 ∧ crc.length = 4) ∨
      (kindOf hdr = 0x90 ∧ frameSizeOf c hdr ≤ 64 ∧ p.length = frameSizeOf c hdr ∧ crc = []) ∨
      (kindOf hdr = 0x91 ∧ frameSizeOf c hdr ≤ 64 ∧ p.length = frameSizeOf c hdr ∧ crc.length = 4))

/-- The frame of a header image and a payload (spec/42_decoder.md R305 to R307), with timestamp `t`. -/
def frameOf (c : Config) (hdr p : Bytes) (t : Time) : CanFrame where
  arbitrationId := BitVec.ofNat 32 (idRawOf c hdr % 2 ^ c.idBits)
  dlc := byteAt hdr (13 + c.tagBytes)
  data := p.take (frameSizeOf c hdr)
  extendedId := extendedOf c hdr
  remoteFrame := decide (kindOf hdr < 0x90) && flagOf c hdr 0
  errorFrame := decide (0x90 ≤ kindOf hdr) && flagOf c hdr 6
  isFd := decide (0x90 ≤ kindOf hdr)
  bitrateSwitch := decide (0x90 ≤ kindOf hdr) && flagOf c hdr 5
  timestamp := some t

/-- The frame of a header record and a payload, by class (R305 to R307). -/
def frameOfHeader (c : Config) (fd : Bool) (h : WireHeader) (p : Bytes) (t : Time) : CanFrame where
  arbitrationId := BitVec.ofNat 32 (h.frameIdRaw.toNat % 2 ^ c.idBits)
  dlc := h.frameSize
  data := p.take h.frameSize.toNat
  extendedId := h.frameIdRaw.getLsbD 31
  remoteFrame := !fd && h.frameFlags.getLsbD 0
  errorFrame := fd && h.frameFlags.getLsbD 6
  isFd := fd
  bitrateSwitch := fd && h.frameFlags.getLsbD 5
  timestamp := some t

/-- The four defined kinds as instructions, with their class and whether they carry a trailer (R160). -/
def KnownKind (i : Instr) (h : WireHeader) (fd crc : Bool) : Prop :=
  (i = .kindCanFrame h ∧ fd = false ∧ crc = false) ∨ (i = .kindCanFrameCrc h ∧ fd = false ∧ crc = true) ∨
    (i = .kindCanFdFrame h ∧ fd = true ∧ crc = false) ∨ (i = .kindCanFdFrameCrc h ∧ fd = true ∧ crc = true)

/-- The largest `frame_size` of a class (R310). -/
def maxSize (fd : Bool) : Nat := if fd = true then 64 else 8

/-- The payload length of a class (R304). -/
def payloadLength (fd : Bool) (h : WireHeader) : Nat := if fd = true then h.frameSize.toNat else 8

/-- The value of a digit character (spec/40_header.md R211). -/
def digitValue (ch : Char) : Nat := if ch.toNat < 58 then ch.toNat - 48 else ch.toNat - 87

/-- `text` is the base-`b` spelling of `v` with digits `0-9a-f`, no leading zeros, and one zero for zero (R211). -/
def Spells (b : Nat) (text : List Char) (v : Nat) : Prop :=
  (∀ ch ∈ text, (('0' ≤ ch ∧ ch ≤ '9') ∨ ('a' ≤ ch ∧ ch ≤ 'f')) ∧ digitValue ch < b) ∧
    text.foldl (fun n ch => n * b + digitValue ch) 0 = v ∧
    text ≠ [] ∧ (text.head? = some '0' → text = ['0'])

/-- How many frames a list of results holds. -/
def frameCount (rs : List Result) : Nat :=
  (rs.filter fun r => match r with
    | .ok (.frame _) => true
    | _ => false).length

/-- The state after an operation that ends with result `r` and changes nothing else. -/
def ended (r : Result) (s : State) : State := { s with results := s.results ++ [r], activity := .idle }

/-- The state after `raise Fault(code)` (spec/60_exceptions.md R500, R502). -/
def faulted (c : FaultCode) (s : State) : State := ended (.fault c) { s with fault := some c }

/-- The state after `refuse(reason)` (spec/60_exceptions.md R500, R503). -/
def refusedState (r : RefuseReason) (s : State) : State := ended (.refused r) { s with refused := some r }

/-- The state after a decode that returns frame `g`: one time draw more. -/
def framed (g : CanFrame) (s : State) : State := ended (.ok (.frame g)) { s with timeDraws := s.timeDraws + 1 }

/-- `i` ends, or waits, in a READ that is cut short: `buf` is all it has buffered and `rest` the answers it has not taken.
A timeout gives no frame and a socket error faults (spec/42_decoder.md R301), and both keep the buffered bytes
(spec/43_reader.md R350); while no admissible answer is there, it waits with the record `wait` (the model's choice,
logs 2 and 7). -/
def CutShort (i : Instr) (tmo : Timeout) (s : State) (buf : Bytes) (rest : List RxAnswer) (wait : Activity) : Prop :=
  (∀ as, tmo = .finite → rest = .timedOut :: as →
    exec i s = .next (ended (.noFrame .timeout) { s with buf := buf, rxAnswers := as })) ∧
  (∀ as, rest = .sockErr :: as → exec i s = .next (faulted .socket { s with buf := buf, rxAnswers := as })) ∧
  (rest = [] ∨ (tmo = .none ∧ rest.head? = some .timedOut) →
    exec i s = .next { s with buf := buf, rxAnswers := rest, activity := wait })

end Sys2Proof.Stated

open Sys2Proof Sys2Proof.Machine Sys2Proof.Stated

/-! ## Encoding -/

/-- Words written out from the spec's encodings decode to the instructions they stand for (R150, R181 to R183, vectors
W1, B11, E15, E16, P1). -/
def Obligations.WrittenWordsDecode : Prop :=
  decode Config.std .command [0x01, 0x00, 0x00, 0x00, 0x45, 0x02, 0x14, 0xAA, 0xBB] =
      .ok (.encode { arbitrationId := 0x45, dlc := 2, data := [0xAA, 0xBB], extendedId := false, remoteFrame := false,
                     errorFrame := true, isFd := false, bitrateSwitch := true, timestamp := none }) ∧
    decode Config.std .command [0x03, 0x01] = .ok (.receive .finite) ∧
    decode Config.std .command [0x04] = .ok .shutdown ∧
    decode Config.std .command [0x05] = .ok (.illegal [0x05]) ∧
    decode Config.std .command [0x01, 0x00, 0x00, 0x00, 0x45, 0x00, 0x20] = .error .badOperand ∧
    decode Config.std .command [0x01, 0x00, 0x00, 0x00, 0x45, 0x02, 0x00, 0xAA] = .error .badOperand ∧
    decode Config.std .wire [0x00, 0x1E, 0x00, 0x91, 0, 0, 0, 0, 0, 0, 0, 0, 0, 0, 0, 0, 0x00, 0x02, 0x00, 0x40,
        0x00, 0x00, 0x02, 0x00] =
      .ok (.kindCanFdFrameCrc { packetSize := 30, frameKind := 0x91, reservedTag := 0, timestampLow := 0,
                                timestampHigh := 0, channel := 0, frameSize := 2, frameFlags := 0x40,
                                frameIdRaw := 0x200 })

/-- Decoding what the encoder writes for a well-formed instruction gives the instruction back, for every instruction
and every configuration. -/
def Obligations.DecodeOfEncode : Prop :=
  ∀ (c : Config) (i : Instr), i.wellFormed c = true → decode c i.space (encode c i) = .ok i

/-- Whatever the decoder accepts is the encoding of a well-formed instruction of that space: every word has one
meaning. -/
def Obligations.EncodeOfDecode : Prop :=
  ∀ (c : Config) (sp : Space) (bytes : Bytes) (i : Instr), decode c sp bytes = .ok i →
    i.wellFormed c = true ∧ i.space = sp ∧ encode c i = bytes

/-- R185: exactly the empty command and the commands whose opcode is 0x00, 0x05-0x1F or 0x27-0xFF are illegal, and each
is refused with ILLEGAL_OPCODE and has no other effect. -/
def Obligations.IllegalCommandsRefused : Prop :=
  (∀ (c : Config) (cmd : Bytes), decode c .command cmd = .ok (.illegal cmd) ↔ cmd = [] ∨ IllegalOpcode (byteAt cmd 0)) ∧
    ∀ (cmd : Bytes) (s : State), exec (.illegal cmd) s = .next (refusedState .illegalOpcode s)

/-- R186: a command with a legal opcode is rejected exactly when it is malformed, and the step then refuses it with
BAD_OPERAND and has no other effect than taking the command. -/
def Obligations.MalformedCommandsRefused : Prop :=
  ∀ (s : State) (cmd : Bytes) (rest : List Bytes), s.usable → s.activity = .idle → s.commands = cmd :: rest →
    cmd ≠ [] → ¬ IllegalOpcode (byteAt cmd 0) →
    (Malformed s.cfg cmd → step s = .next (refusedState .badOperand { s with commands := rest })) ∧
      (¬ Malformed s.cfg cmd → ∃ i, decode s.cfg .command cmd = .ok i ∧ step s = exec i { s with commands := rest })

/-- PackHeader and UnpackHeader are inverse functions (the inference the spec makes in R203). -/
def Obligations.PackUnpackInverse : Prop :=
  (∀ (c : Config) (h : WireHeader), h.reservedTag < 256 ^ c.tagBytes → unpackHeader c (packHeader c h) = h) ∧
    ∀ (c : Config) (B : Bytes), B.length = c.hdrBytes → packHeader c (unpackHeader c B) = B

/-- The nine fields of a packed header lie in table order, big-endian, with no padding, in `20 + TAG_BYTES` bytes (the
offsets the spec derives in R150). -/
def Obligations.HeaderFieldsInTableOrder : Prop :=
  ∀ (c : Config) (h : WireHeader),
    packHeader c h =
      be 2 h.packetSize.toNat ++ be 2 h.frameKind.toNat ++ be c.tagBytes h.reservedTag ++ be 4 h.timestampLow.toNat
        ++ be 4 h.timestampHigh.toNat ++ [h.channel] ++ [h.frameSize] ++ be 2 h.frameFlags.toNat
        ++ be 4 h.frameIdRaw.toNat ∧
      (packHeader c h).length = 20 + c.tagBytes

/-- An assembler line of ENCODE or SEND (R187) whose `dlc` counts its data decodes to the instruction it spells, with
omitted `data` and `fl` taken as empty. -/
def Obligations.AssembledFrameDecodes : Prop :=
  ∀ (c : Config) (id : U32) (dlc : Byte) (data : Option Bytes) (fl : Option (List FlagName)),
    (data.getD []).length = dlc.toNat →
    let f : CanFrame :=
      { arbitrationId := id, dlc := dlc, data := data.getD [], extendedId := decide (.ext ∈ fl.getD [])
        remoteFrame := decide (.rtr ∈ fl.getD []), errorFrame := decide (.err ∈ fl.getD [])
        isFd := decide (.fd ∈ fl.getD []), bitrateSwitch := decide (.brs ∈ fl.getD []), timestamp := none }
    decode c .command (assemble (.encode id dlc data fl)) = .ok (.encode f) ∧
      decode c .command (assemble (.send id dlc data fl)) = .ok (.send f)

/-! ## The step -/

/-- Between operations, a step takes the oldest command and runs the instruction its bytes decode to. -/
def Obligations.StepRunsDecodedCommand : Prop :=
  ∀ (s : State) (cmd : Bytes) (rest : List Bytes) (i : Instr), s.usable → s.activity = .idle → s.commands = cmd :: rest →
    decode s.cfg .command cmd = .ok i → step s = exec i { s with commands := rest }

/-- While a decode is in progress, a step runs the frame kind its header image decodes to; while a SEND or a RECEIVE
waits for the environment, a step runs it again (log 7). -/
def Obligations.StepContinuesOperation : Prop :=
  ∀ (s : State), s.usable →
    (∀ tmo hdr got i, s.activity = .decoding tmo hdr got → decode s.cfg .wire hdr = .ok i → step s = exec i s) ∧
    (∀ d i, s.activity = .parsing d → decode s.cfg .wire (slice d 0 s.cfg.hdrBytes) = .ok i → step s = exec i s) ∧
    (∀ f, s.activity = .sending f → step s = exec (.send f) s) ∧
    (∀ tmo, s.activity = .receiving tmo → step s = exec (.receive tmo) s)

/-- A block with a mark set has no next state (R504, R505: the third clause). Which outcome then stops the step is the
model's rendering (log 8, DEDUCED): the fault `blockFaulted` with the code of a set fault mark, also where both marks
stand, and otherwise the refusal `blockRefused` with the reason. -/
def Obligations.MarkedBlockHasNoStep : Prop :=
  ∀ (s : State),
    (∀ c, s.fault = some c → step s = .fault (.blockFaulted c)) ∧
    (∀ r, s.fault = none → s.refused = some r → step s = .refused (.blockRefused r)) ∧
    ∀ t, step s = .next t → s.fault = none ∧ s.refused = none

/-- A block with nothing in progress and no command waits, and a run that ended well stays as it is (R600, R612). -/
def Obligations.IdleBlockWaits : Prop :=
  (∀ (s : State), s.usable → s.activity = .idle → s.commands = [] → step s = .next s) ∧
    ∀ (s : State), s.endedWell → step s = .next s

/-- R600 to R602: construction refuses a configuration that fails the checks (R601), raises `Fault(SOCKET)` when an
endpoint cannot be created or bound (R602), and otherwise leaves the state of R71, which waits for the host's first
command. Where no block exists, the refusal is the model's `illegalConfig` and the fault its `endpointFailed` with the
code SOCKET (log 15). No later step changes the configuration (R600). -/
def Obligations.ConstructionChecksAndResets : Prop :=
  (∀ (c : Config) (tx rx : EndpointAnswer),
    let checked := (c.tagBytes = 4 ∨ c.tagBytes = 8) ∧ (c.idBits = 28 ∨ c.idBits = 29) ∧ 1 ≤ c.chunkBytes
    (¬ checked → construct c tx rx = .refused .illegalConfig) ∧
    (checked → tx = .failed ∨ rx = .failed → construct c tx rx = .fault (.endpointFailed .socket)) ∧
    (checked → tx = .made → rx = .made →
      ∃ s, construct c tx rx = .next s ∧ s.cfg = c ∧ s.buf = [] ∧ s.life = .opened ∧ s.fault = none ∧
        s.refused = none ∧ s.txlog = [] ∧ s.warnlog = [] ∧ step s = .next s)) ∧
    ∀ s t : State, step s = .next t → t.cfg = s.cfg

/-! ## Header accessors -/

/-- R204 to R207: the four flag accessors answer bits 0, 4, 5 and 6 of `frame_flags`, in any state, and change nothing
else; their opcodes are 0x20 to 0x23. -/
def Obligations.FlagAccessorsAnswerTheirBit : Prop :=
  ∀ (hdr : Bytes) (s : State), hdr.length = s.cfg.hdrBytes →
    exec (.isRemoteRequest hdr) s = .next (ended (.ok (.bool (flagOf s.cfg hdr 0))) s) ∧
    exec (.isFdFlagged hdr) s = .next (ended (.ok (.bool (flagOf s.cfg hdr 4))) s) ∧
    exec (.isBitrateSwitch hdr) s = .next (ended (.ok (.bool (flagOf s.cfg hdr 5))) s) ∧
    exec (.isErrorState hdr) s = .next (ended (.ok (.bool (flagOf s.cfg hdr 6))) s) ∧
    decode s.cfg .command (0x20 :: hdr) = .ok (.isRemoteRequest hdr) ∧
    decode s.cfg .command (0x21 :: hdr) = .ok (.isFdFlagged hdr) ∧
    decode s.cfg .command (0x22 :: hdr) = .ok (.isBitrateSwitch hdr) ∧
    decode s.cfg .command (0x23 :: hdr) = .ok (.isErrorState hdr)

/-- R208: IS_EXTENDED_ID answers bit 31 of `frame_id_raw` and changes nothing else; its opcode is 0x24. -/
def Obligations.ExtendedIdAccessorAnswersBit31 : Prop :=
  ∀ (hdr : Bytes) (s : State), hdr.length = s.cfg.hdrBytes →
    exec (.isExtendedId hdr) s = .next (ended (.ok (.bool (extendedOf s.cfg hdr))) s) ∧
      decode s.cfg .command (0x24 :: hdr) = .ok (.isExtendedId hdr)

/-- R209: ID answers `frame_id_raw & ID_MASK`, a value below `2^ID_BITS`, and changes nothing else; its opcode is
0x25. -/
def Obligations.IdAccessorAnswersMaskedId : Prop :=
  ∀ (hdr : Bytes) (s : State), s.cfg.Legal → hdr.length = s.cfg.hdrBytes →
    ∃ v : U32, exec (.getId hdr) s = .next (ended (.ok (.word v)) s) ∧
      v.toNat = idRawOf s.cfg hdr % 2 ^ s.cfg.idBits ∧ v.toNat < 2 ^ s.cfg.idBits ∧
      decode s.cfg .command (0x25 :: hdr) = .ok (.getId hdr)

/-- R210, R211: SUMMARY answers the text of the masked id and the frame size, with the suffix exactly for an extended
id, and changes nothing else; its opcode is 0x26. -/
def Obligations.SummaryAnswersText : Prop :=
  ∀ (hdr : Bytes) (s : State), s.cfg.Legal → hdr.length = s.cfg.hdrBytes →
    ∃ x d : List Char,
      exec (.summary hdr) s =
        .next (ended (.ok (.text (['I', 'D', '=', '0', 'x'] ++ x ++ [' ', 'D', 'L', 'C', '='] ++ d ++
          if extendedOf s.cfg hdr = true then [' ', 'E', 'X', 'T', 'E', 'N', 'D', 'E', 'D'] else []))) s) ∧
      Spells 16 x (idRawOf s.cfg hdr % 2 ^ s.cfg.idBits) ∧ Spells 10 d (frameSizeOf s.cfg hdr) ∧
      decode s.cfg .command (0x26 :: hdr) = .ok (.summary hdr)

/-! ## Encoder -/

/-- R250, R252 to R254: ENCODE of a valid frame answers its datagram, byte for byte, in either lifecycle state, and
changes nothing else. -/
def Obligations.EncodeAnswersDatagram : Prop :=
  ∀ (f : CanFrame) (s : State), s.cfg.Legal → Valid f →
    exec (.encode f) s = .next (ended (.ok (.bytes (wireImage s.cfg f))) s)

/-- R251: ENCODE, and SEND on an open block, of a frame that is not valid for encode refuse with ENCODE_PRECOND and do
nothing else. -/
def Obligations.InvalidFramesRefused : Prop :=
  ∀ (f : CanFrame) (s : State), ¬ Valid f →
    exec (.encode f) s = .next (refusedState .encodePrecond s) ∧
      (s.life = .opened → exec (.send f) s = .next (refusedState .encodePrecond s))

/-- The length of the datagram of a valid frame is `HDR + 8` or `HDR + dlc`, and its packet size field says so (the
inference the spec makes in R254). -/
def Obligations.PacketSizeIsDatagramLength : Prop :=
  ∀ (c : Config) (f : CanFrame), c.Legal → Valid f →
    (encodeDatagram c f).length = 20 + c.tagBytes + wirePayload f ∧
      (encodeHeader c f).packetSize.toNat = (encodeDatagram c f).length ∧
      (encodeDatagram c f).take 2 = be 2 (encodeDatagram c f).length

/-- R256, R257: the encoder ignores a timestamp and writes 0 to both wire timestamps, and for an FD frame it ignores
`remote_frame` and sets neither `frame_flags` bit 0 nor `frame_id_raw` bit 30. -/
def Obligations.EncoderIgnoresTimestampAndFdRemote : Prop :=
  ∀ (f : CanFrame) (s : State),
    (∀ t, exec (.encode { f with timestamp := t }) s = exec (.encode f) s) ∧
    (encodeHeader s.cfg f).timestampLow = 0 ∧ (encodeHeader s.cfg f).timestampHigh = 0 ∧
    (f.isFd = true → ∀ b, exec (.encode { f with remoteFrame := b }) s = exec (.encode f) s) ∧
    (f.isFd = true → Valid f →
      (encodeHeader s.cfg f).frameFlags.getLsbD 0 = false ∧ (encodeHeader s.cfg f).frameIdRaw.getLsbD 30 = false)

/-! ## Bus -/

/-- R400: SEND faults with CLOSED on a closed block, refuses a frame that is not valid for encode, and otherwise hands
the frame's datagram to the transmit port; `Sent` appends it to the transmit log and answers Ok, `SockErr` faults with
SOCKET and logs nothing. -/
def Obligations.SendTransmitsOneDatagram : Prop :=
  ∀ (f : CanFrame) (s : State) (as : List TxAnswer), s.cfg.Legal →
    (s.life = .closed → exec (.send f) s = .next (faulted .closed s)) ∧
    (s.life = .opened → ¬ Valid f → exec (.send f) s = .next (refusedState .encodePrecond s)) ∧
    (s.life = .opened → Valid f → s.txAnswers = .sent :: as →
      exec (.send f) s =
        .next (ended (.ok .unit) { s with txAnswers := as, txlog := s.txlog ++ [wireImage s.cfg f] })) ∧
    (s.life = .opened → Valid f → s.txAnswers = .sockErr :: as →
      exec (.send f) s = .next (faulted .socket { s with txAnswers := as }))

/-- While the environment has not answered the transmit, SEND stays in progress and changes nothing else (the model's
choice, log 3). -/
def Obligations.SendWaitsForTransmitAnswer : Prop :=
  ∀ (f : CanFrame) (s : State), Valid f → s.life = .opened → s.txAnswers = [] →
    exec (.send f) s = .next { s with activity := .sending f }

/-- R402: SHUTDOWN closes an open block and drops its buffer; on a closed block it changes nothing; it always answers
Ok. -/
def Obligations.ShutdownClosesOnce : Prop :=
  ∀ (s : State),
    (s.life = .opened → exec .shutdown s = .next (ended (.ok .unit) { s with life := .closed, buf := [] })) ∧
    (s.life = .closed → exec .shutdown s = .next (ended (.ok .unit) s))

/-- R403: on a closed block SEND and RECEIVE fault with CLOSED before any other check; SHUTDOWN, ENCODE of a valid frame
and the seven accessors answer Ok in either lifecycle state, the last eight without any other effect. -/
def Obligations.LifecycleGating : Prop :=
  ∀ (s : State),
    (s.life = .closed →
      (∀ f, exec (.send f) s = .next (faulted .closed s)) ∧ ∀ tmo, exec (.receive tmo) s = .next (faulted .closed s)) ∧
    (∃ t, exec .shutdown s = .next t ∧ t.results = s.results ++ [.ok .unit]) ∧
    ∀ (i : Instr), ((∃ f, Valid f ∧ i = .encode f) ∨
        ∃ hdr : Bytes, hdr.length = s.cfg.hdrBytes ∧
          (i = .isRemoteRequest hdr ∨ i = .isFdFlagged hdr ∨ i = .isBitrateSwitch hdr ∨ i = .isErrorState hdr ∨
            i = .isExtendedId hdr ∨ i = .getId hdr ∨ i = .summary hdr)) →
      ∃ v, exec i s = .next (ended (.ok v) s)

/-! ## Reader -/

/-- R350: READ takes exactly `n` bytes from the front of the buffer when it holds them; otherwise it receives, appends
at most `CHUNK_BYTES` bytes of a datagram and goes on, gives up on a timeout with every byte kept, and reports a socket
error. -/
def Obligations.ReadTakesOrReceives : Prop :=
  ∀ (n : Nat) (tmo : Timeout) (s : State),
    (n ≤ s.buf.length → readBytes n tmo s = (.bytes (s.buf.take n), { s with buf := s.buf.drop n })) ∧
    (s.buf.length < n → ∀ as,
      (∀ d, s.rxAnswers = .dgram d :: as →
        readBytes n tmo s = readBytes n tmo { s with buf := s.buf ++ d.take s.cfg.chunkBytes, rxAnswers := as }) ∧
      (s.rxAnswers = .timedOut :: as → tmo = .finite → readBytes n tmo s = (.timedOut, { s with rxAnswers := as })) ∧
      (s.rxAnswers = .sockErr :: as → readBytes n tmo s = (.sockErr, { s with rxAnswers := as })))

/-- A READ that succeeds returns exactly `n` bytes and loses none: what it returns followed by what it leaves buffered
is what was buffered followed by the received chunks, and it receives only while it needs to (R350, R352, R353). -/
def Obligations.ReadConservesBytes : Prop :=
  ∀ (n : Nat) (tmo : Timeout) (s t : State) (out : Bytes), readBytes n tmo s = (.bytes out, t) →
    ∃ (ds : List Bytes) (as : List RxAnswer),
      s.rxAnswers = ds.map .dgram ++ as ∧ t = { s with buf := t.buf, rxAnswers := as } ∧ out.length = n ∧
      out ++ t.buf = s.buf ++ chunks s.cfg.chunkBytes ds ∧
      ∀ ds' d, ds = ds' ++ [d] → (s.buf ++ chunks s.cfg.chunkBytes ds').length < n

/-- READ of 0 bytes returns at once, makes no receive and leaves the state as it is (the inference the spec makes in
R357). -/
def Obligations.ReadZeroReturnsAtOnce : Prop :=
  ∀ (tmo : Timeout) (s : State), readBytes 0 tmo s = (.bytes [], s)

/-! ## Receive -/

/-- RECEIVE in STREAM_LOOP mode of a whole datagram of a defined kind at the front of the buffer returns its frame,
consumes exactly its bytes, discards the trailer of a CRC kind and makes no receive (R301, R303 to R307, R312, R67). -/
def Obligations.ReceiveDecodesBufferedDatagram : Prop :=
  ∀ (tmo : Timeout) (s : State) (hdr p crc rest : Bytes), s.cfg.Legal → s.life = .opened →
    s.cfg.readerMode = .streamLoop → WholeDatagram s.cfg hdr p crc → s.buf = hdr ++ p ++ crc ++ rest →
    exec (.receive tmo) s = .next (framed (frameOf s.cfg hdr p (Config.timeDraw s.timeDraws)) { s with buf := rest })

/-- RECEIVE in DATAGRAM_ATOMIC mode of a datagram that, cut to `CHUNK_BYTES` bytes, begins with a whole datagram of a
defined kind returns its frame and takes exactly that datagram (R302). -/
def Obligations.ReceiveParsesAtomicDatagram : Prop :=
  ∀ (tmo : Timeout) (s : State) (d hdr p crc extra : Bytes) (as : List RxAnswer), s.cfg.Legal → s.life = .opened →
    s.cfg.readerMode = .datagramAtomic → WholeDatagram s.cfg hdr p crc → s.rxAnswers = .dgram d :: as →
    d.take s.cfg.chunkBytes = hdr ++ p ++ crc ++ extra →
    exec (.receive tmo) s =
      .next (framed (frameOf s.cfg hdr p (Config.timeDraw s.timeDraws)) { s with rxAnswers := as })

/-- RECEIVE in DATAGRAM_ATOMIC mode: the outcomes without a frame of R302, in the order of R506: a timeout, a socket
error, a datagram shorter than the header, an unknown kind, a `frame_size` over the class's bound, which faults however
long the datagram is, and a datagram shorter than its frame. -/
def Obligations.AtomicReceiveWithoutFrame : Prop :=
  ∀ (tmo : Timeout) (s : State) (as : List RxAnswer), s.cfg.Legal → s.life = .opened →
    s.cfg.readerMode = .datagramAtomic →
    (tmo = .finite → s.rxAnswers = .timedOut :: as →
      exec (.receive tmo) s = .next (ended (.noFrame .timeout) { s with rxAnswers := as })) ∧
    (s.rxAnswers = .sockErr :: as → exec (.receive tmo) s = .next (faulted .socket { s with rxAnswers := as })) ∧
    ∀ d0, s.rxAnswers = .dgram d0 :: as →
      let d := d0.take s.cfg.chunkBytes
      let hdr := d.take s.cfg.hdrBytes
      (d.length < s.cfg.hdrBytes →
        exec (.receive tmo) s =
          .next (ended (.noFrame .underflow)
            { s with rxAnswers := as, warnlog := s.warnlog ++ [.underflow d.length s.cfg.hdrBytes] })) ∧
      (s.cfg.hdrBytes ≤ d.length → kindOf hdr ∉ [0x80, 0x81, 0x90, 0x91] →
        exec (.receive tmo) s =
          .next (ended (.noFrame .unknownKind)
            { s with rxAnswers := as, warnlog := s.warnlog ++ [.unknownKind (BitVec.ofNat 16 (kindOf hdr))] })) ∧
      (s.cfg.hdrBytes ≤ d.length → kindOf hdr = 0x80 ∨ kindOf hdr = 0x81 → 8 < frameSizeOf s.cfg hdr →
        exec (.receive tmo) s = .next (faulted .classicSize { s with rxAnswers := as })) ∧
      (s.cfg.hdrBytes ≤ d.length → kindOf hdr = 0x90 ∨ kindOf hdr = 0x91 → 64 < frameSizeOf s.cfg hdr →
        exec (.receive tmo) s = .next (faulted .fdSize { s with rxAnswers := as })) ∧
      ∀ p crc : Bytes, s.cfg.hdrBytes ≤ d.length → WholeDatagram s.cfg hdr p crc →
        d.length < s.cfg.hdrBytes + p.length + crc.length →
        exec (.receive tmo) s =
          .next (ended (.noFrame .underflow)
            { s with rxAnswers := as
                     warnlog := s.warnlog ++ [.underflow d.length (s.cfg.hdrBytes + p.length + crc.length)] })

/-- RECEIVE in STREAM_LOOP mode whose buffered and received bytes are fewer than a header: a timeout gives no frame and
keeps every byte, a socket error faults, and an answer that may not be given, or none, leaves the receive blocked (R301,
R351; the blocked form is the model's, log 2). -/
def Obligations.StreamReceiveWithoutHeader : Prop :=
  ∀ (tmo : Timeout) (s : State) (ds : List Bytes) (rest : List RxAnswer), s.life = .opened →
    s.cfg.readerMode = .streamLoop → s.rxAnswers = ds.map .dgram ++ rest →
    let all := s.buf ++ chunks s.cfg.chunkBytes ds
    all.length < s.cfg.hdrBytes → CutShort (.receive tmo) tmo s all rest (.receiving tmo)

/-- An unknown kind in STREAM_LOOP mode consumes only the header bytes, appends the warning and gives no frame; the rest
of the datagram stays buffered (the inference the spec makes in R605). -/
def Obligations.UnknownKindConsumesOnlyHeader : Prop :=
  ∀ (tmo : Timeout) (s : State) (hdr rest : Bytes), s.life = .opened → s.cfg.readerMode = .streamLoop →
    hdr.length = s.cfg.hdrBytes → kindOf hdr ∉ [0x80, 0x81, 0x90, 0x91] → s.buf = hdr ++ rest →
    exec (.receive tmo) s =
      .next (ended (.noFrame .unknownKind)
        { s with buf := rest, warnlog := s.warnlog ++ [.unknownKind (BitVec.ofNat 16 (kindOf hdr))] })

/-- A RECEIVE that times out in its payload read keeps the header consumed and the partial payload at the front of the
buffer, and gives no frame (the inference the spec makes in R604). -/
def Obligations.PartialFrameTimeoutKeepsPayload : Prop :=
  ∀ (s : State) (hdr p crc part : Bytes) (as : List RxAnswer), s.cfg.Legal → s.life = .opened →
    s.cfg.readerMode = .streamLoop → WholeDatagram s.cfg hdr p crc → part.length < p.length →
    s.buf = hdr ++ part → s.rxAnswers = .timedOut :: as →
    exec (.receive .finite) s = .next (ended (.noFrame .timeout) { s with buf := part, rxAnswers := as })

/-- The inference the spec makes in R606: two whole datagrams delivered as one decode as two frames by two RECEIVEs, the
second without a receive; a datagram split over two deliveries decodes as one frame. -/
def Obligations.DatagramBoundariesIgnored : Prop :=
  ∀ (tmo : Timeout) (s : State) (as : List RxAnswer), s.cfg.Legal → s.life = .opened →
    s.cfg.readerMode = .streamLoop → s.buf = [] →
    (∀ hdr1 p1 crc1 hdr2 p2 crc2 : Bytes, WholeDatagram s.cfg hdr1 p1 crc1 → WholeDatagram s.cfg hdr2 p2 crc2 →
      (hdr1 ++ p1 ++ crc1 ++ hdr2 ++ p2 ++ crc2).length ≤ s.cfg.chunkBytes →
      s.rxAnswers = .dgram (hdr1 ++ p1 ++ crc1 ++ hdr2 ++ p2 ++ crc2) :: as →
      ∃ t, exec (.receive tmo) s = .next t ∧ t.rxAnswers = as ∧
        exec (.receive tmo) t =
          .next (framed (frameOf s.cfg hdr2 p2 (Config.timeDraw (s.timeDraws + 1)))
            (framed (frameOf s.cfg hdr1 p1 (Config.timeDraw s.timeDraws)) { s with rxAnswers := as }))) ∧
    ∀ hdr p crc a b : Bytes, WholeDatagram s.cfg hdr p crc → a ++ b = hdr ++ p ++ crc → a.length ≤ s.cfg.chunkBytes →
      b.length ≤ s.cfg.chunkBytes → a.length < 20 + s.cfg.tagBytes + p.length + crc.length →
      s.rxAnswers = .dgram a :: .dgram b :: as →
      exec (.receive tmo) s =
        .next (framed (frameOf s.cfg hdr p (Config.timeDraw s.timeDraws)) { s with rxAnswers := as })

/-! ## Frame kinds -/

/-- The four defined kinds as instructions, in a STREAM_LOOP decode: the payload and, for a CRC kind, four bytes more
are consumed and the frame is returned; a decode whose payload is already read takes only the trailer (R301, R304 to
R307, R312). -/
def Obligations.KindsCompleteInStreamDecode : Prop :=
  ∀ (i : Instr) (h : WireHeader) (fd crc : Bool) (tmo : Timeout) (hdr p trailer rest : Bytes) (s : State),
    s.cfg.Legal → KnownKind i h fd crc → h.frameSize.toNat ≤ maxSize fd → p.length = payloadLength fd h →
    trailer.length = (if crc = true then 4 else 0) →
    (s.activity = .decoding tmo hdr none → s.buf = p ++ trailer ++ rest →
      exec i s =
        .next (framed (frameOfHeader s.cfg fd h p (Config.timeDraw s.timeDraws)) { s with buf := rest })) ∧
    (s.activity = .decoding tmo hdr (some p) → s.buf = trailer ++ rest →
      exec i s =
        .next (framed (frameOfHeader s.cfg fd h p (Config.timeDraw s.timeDraws)) { s with buf := rest }))

/-- The four defined kinds as instructions, in a DATAGRAM_ATOMIC decode: a datagram that holds the header, the payload
and the trailer gives the frame; a shorter one gives an underflow warning and no frame (R302). -/
def Obligations.KindsCompleteInAtomicDecode : Prop :=
  ∀ (i : Instr) (h : WireHeader) (fd crc : Bool) (d : Bytes) (s : State),
    s.cfg.Legal → KnownKind i h fd crc → h.frameSize.toNat ≤ maxSize fd → s.activity = .parsing d →
    let need := s.cfg.hdrBytes + payloadLength fd h + if crc = true then 4 else 0
    (need ≤ d.length →
      exec i s =
        .next (framed (frameOfHeader s.cfg fd h ((d.drop s.cfg.hdrBytes).take (payloadLength fd h))
          (Config.timeDraw s.timeDraws)) s)) ∧
    (d.length < need →
      exec i s =
        .next (ended (.noFrame .underflow) { s with warnlog := s.warnlog ++ [.underflow d.length need] }))

/-- The four defined kinds as instructions, in a STREAM_LOOP decode whose bytes run out after the datagrams `ds`: in the
payload read everything that arrived stays buffered; in the trailer read of a CRC kind exactly the payload is consumed
and the partial trailer stays buffered. A timeout gives no frame, a socket error faults (R301), and a decode that waits
keeps its header and, once read, its payload (the model's choice, log 7). -/
def Obligations.StreamDecodeCutShort : Prop :=
  ∀ (i : Instr) (h : WireHeader) (fd crc : Bool) (tmo : Timeout) (hdr p : Bytes) (s : State) (ds : List Bytes)
    (rest : List RxAnswer),
    KnownKind i h fd crc → h.frameSize.toNat ≤ maxSize fd → s.rxAnswers = ds.map .dgram ++ rest →
    let all := s.buf ++ chunks s.cfg.chunkBytes ds
    (s.activity = .decoding tmo hdr none → all.length < payloadLength fd h →
      CutShort i tmo s all rest (.decoding tmo hdr none)) ∧
    (crc = true → s.activity = .decoding tmo hdr none → p.length = payloadLength fd h → ∀ part : Bytes,
      all = p ++ part → part.length < 4 → CutShort i tmo s part rest (.decoding tmo hdr (some p))) ∧
    (crc = true → s.activity = .decoding tmo hdr (some p) → all.length < 4 →
      CutShort i tmo s all rest (.decoding tmo hdr (some p)))

/-- R310: a defined kind whose `frame_size` exceeds 8 (classic) or 64 (FD) faults with CLASSIC_SIZE or FD_SIZE, in
either mode, before anything more is read. -/
def Obligations.OversizedKindsFault : Prop :=
  ∀ (i : Instr) (h : WireHeader) (fd crc : Bool) (s : State), KnownKind i h fd crc →
    ((∃ tmo hdr got, s.activity = .decoding tmo hdr got) ∨ ∃ d, s.activity = .parsing d) →
    (maxSize fd < h.frameSize.toNat →
      exec i s = .next (faulted (if fd = true then .fdSize else .classicSize) s)) ∧
    (h.frameSize.toNat ≤ maxSize fd → ∀ t, exec i s = .next t → t.fault = s.fault ∨ t.fault = some .socket)

/-- R308: every kind other than the four selects KIND_UNKNOWN, which in a decode of either mode appends the warning,
gives no frame and reads nothing. -/
def Obligations.UnknownKindWarns : Prop :=
  (∀ h : WireHeader, kindInstr h = .kindUnknown h ↔ h.frameKind.toNat ∉ [0x80, 0x81, 0x90, 0x91]) ∧
    ∀ (h : WireHeader) (s : State),
      ((∃ tmo hdr got, s.activity = .decoding tmo hdr got) ∨ ∃ d, s.activity = .parsing d) →
      exec (.kindUnknown h) s =
        .next (ended (.noFrame .unknownKind) { s with warnlog := s.warnlog ++ [.unknownKind h.frameKind] })

/-- A frame kind outside a decode in progress is refused by name: it is no command (R300, log 9). -/
def Obligations.KindsOutsideDecodeRefused : Prop :=
  ∀ (i : Instr) (s : State), i.space = .wire →
    (s.activity = .idle ∨ (∃ f, s.activity = .sending f) ∨ ∃ tmo, s.activity = .receiving tmo) →
    exec i s = .refused .noDecodeInProgress

/-- A RECEIVE whose header is there goes on exactly as the frame kind the header decodes to, with the decode in progress
(log 9): in STREAM_LOOP mode after the header READ, from the buffer or with receives (R301), and in DATAGRAM_ATOMIC mode
after its one receive, on the datagram cut to `CHUNK_BYTES` bytes (R302). -/
def Obligations.ReceiveHandsHeaderToKind : Prop :=
  ∀ (tmo : Timeout) (s : State) (i : Instr), s.life = .opened →
    (∀ hdr rest : Bytes, s.cfg.readerMode = .streamLoop → hdr.length = s.cfg.hdrBytes → s.buf = hdr ++ rest →
      decode s.cfg .wire hdr = .ok i →
      exec (.receive tmo) s = exec i { s with buf := rest, activity := .decoding tmo hdr none }) ∧
    (∀ (hdr : Bytes) (u : State), s.cfg.readerMode = .streamLoop → readBytes s.cfg.hdrBytes tmo s = (.bytes hdr, u) →
      decode s.cfg .wire hdr = .ok i → exec (.receive tmo) s = exec i { u with activity := .decoding tmo hdr none }) ∧
    ∀ (d0 : Bytes) (as : List RxAnswer), s.cfg.readerMode = .datagramAtomic → s.rxAnswers = .dgram d0 :: as →
      let d := d0.take s.cfg.chunkBytes
      s.cfg.hdrBytes ≤ d.length → decode s.cfg .wire (d.take s.cfg.hdrBytes) = .ok i →
      exec (.receive tmo) s = exec i { s with rxAnswers := as, activity := .parsing d }

/-- R311: the decoder reads only the kind, the size, flag bits 0, 5 and 6, and the masked id and bit 31: two headers of
one kind that agree on these have the same outcome in every state. -/
def Obligations.DecoderIgnoresOtherFields : Prop :=
  ∀ (h g : WireHeader) (s : State), h.frameKind = g.frameKind → h.frameSize = g.frameSize →
    (∀ j, j = 0 ∨ j = 5 ∨ j = 6 → h.frameFlags.getLsbD j = g.frameFlags.getLsbD j) →
    (∀ j, j < s.cfg.idBits ∨ j = 31 → h.frameIdRaw.getLsbD j = g.frameIdRaw.getLsbD j) →
    exec (kindInstr h) s = exec (kindInstr g) s

/-! ## Whole machine -/

/-- The round trip, the property the spec derives in R314. A RECEIVE that takes exactly the bytes of the datagram of a
valid frame returns the frame's fields, with the id masked, the flags of the other class false, and, in STREAM_LOOP
mode, an empty buffer. -/
def Obligations.RoundTripOfValidFrames : Prop :=
  ∀ (f : CanFrame) (tmo : Timeout) (s : State) (as : List RxAnswer), s.cfg.Legal → Valid f → s.life = .opened →
    s.buf = [] → (encodeDatagram s.cfg f).length ≤ s.cfg.chunkBytes →
    s.rxAnswers = .dgram (encodeDatagram s.cfg f) :: as →
    ∃ g t, exec (.receive tmo) s = .next t ∧ t.results = s.results ++ [.ok (.frame g)] ∧ t.buf = [] ∧
      t.rxAnswers = as ∧ g.arbitrationId.toNat = f.arbitrationId.toNat % 2 ^ s.cfg.idBits ∧ g.dlc = f.dlc ∧
      g.data = f.data ∧ g.extendedId = f.extendedId ∧ g.isFd = f.isFd ∧
      (f.isFd = false →
        g.remoteFrame = f.remoteFrame ∧ g.errorFrame = false ∧ g.bitrateSwitch = false) ∧
      (f.isFd = true →
        g.bitrateSwitch = f.bitrateSwitch ∧ g.errorFrame = f.errorFrame ∧ g.remoteFrame = false)

/-- The invariant of the block is kept by every step: legal configuration, buffer bound (R354), empty buffer in
DATAGRAM_ATOMIC mode (R355) and when closed (R402), at most one mark, an operation in progress the block could have
begun, every frame answered within R313, every datagram transmitted of the encoder's form (R151, R173). -/
def Obligations.StepKeepsInvariant : Prop :=
  ∀ (s t : State), Inv s → step s = .next t → Inv t

/-- The invariant holds after every successful construction, and so after reset. -/
def Obligations.ConstructedBlockMeetsInvariant : Prop :=
  (∀ (c : Config) (s : State), construct c .made .made = .next s → Inv s) ∧ Inv State.reset

/-- An instruction that answers a next state either leaves its operation in progress with no result (the model's choice,
log 7), or ends it with exactly one result (R500); a fault sets the fault mark and a refusal the refusal mark to that
result's code, and no other outcome touches a mark. -/
def Obligations.EveryOperationEndsInOneOutcome : Prop :=
  ∀ (i : Instr) (s t : State), exec i s = .next t →
    (t.results = s.results ∧ t.activity ≠ .idle ∧ t.fault = s.fault ∧ t.refused = s.refused) ∨
    ∃ r, t.results = s.results ++ [r] ∧ t.activity = .idle ∧
      t.fault = (match r with
        | .fault c => some c
        | _ => s.fault) ∧
      t.refused = match r with
        | .refused q => some q
        | _ => s.refused

/-- Which instruction may write which state, over all instructions: the lifecycle only SHUTDOWN; the transmit log and
the transmit answers only SEND; the warning log, the receive answers and the time draws only RECEIVE and the kinds; the
buffer only RECEIVE, SHUTDOWN and the kinds; the configuration and the command queue none (R109, R400 to R402). -/
def Obligations.OnlyTheseInstructionsWrite : Prop :=
  ∀ (i : Instr) (s t : State), exec i s = .next t →
    t.cfg = s.cfg ∧ t.commands = s.commands ∧
    (t.life ≠ s.life → i = .shutdown) ∧
    (t.txlog ≠ s.txlog ∨ t.txAnswers ≠ s.txAnswers → ∃ f, i = .send f) ∧
    (t.warnlog ≠ s.warnlog ∨ t.rxAnswers ≠ s.rxAnswers ∨ t.timeDraws ≠ s.timeDraws →
      (∃ tmo, i = .receive tmo) ∨ i.space = .wire) ∧
    (t.buf ≠ s.buf → (∃ tmo, i = .receive tmo) ∨ i = .shutdown ∨ i.space = .wire)

/-- The logs and the answers only grow at their end, and inputs are only taken from the front of their queues
(R56, R57, R110). -/
def Obligations.LogsOnlyGrow : Prop :=
  ∀ (s t : State), step s = .next t →
    s.warnlog <+: t.warnlog ∧ s.txlog <+: t.txlog ∧ s.results <+: t.results ∧ t.commands <:+ s.commands ∧
      t.rxAnswers <:+ s.rxAnswers ∧ t.txAnswers <:+ s.txAnswers

/-- A step makes one time draw (R309; the draws are counted by the model's own counter, log 4) for each frame it
returns, and none otherwise. -/
def Obligations.OneTimeDrawPerFrame : Prop :=
  ∀ (s t : State), step s = .next t →
    t.timeDraws + frameCount s.results = s.timeDraws + frameCount t.results

/-- The inference the spec makes in R516: in STREAM_LOOP mode no step answers an underflow or warns of one. -/
def Obligations.NoUnderflowInStreamMode : Prop :=
  ∀ (s t : State), Inv s → s.cfg.readerMode = .streamLoop → step s = .next t →
    (.noFrame .underflow ∈ t.results → .noFrame .underflow ∈ s.results) ∧
      ∀ got need, .underflow got need ∈ t.warnlog → .underflow got need ∈ s.warnlog

/-- In DATAGRAM_ATOMIC mode a RECEIVE on an open block makes at most one receive (R302, R405): it takes the one answer
it uses, or, while none may be given, takes nothing (the model's choice, log 2). -/
def Obligations.AtomicReceiveTakesOneAnswer : Prop :=
  ∀ (tmo : Timeout) (s : State), s.life = .opened → s.cfg.readerMode = .datagramAtomic →
    ∃ t, exec (.receive tmo) s = .next t ∧ t.buf = s.buf ∧
      ((∃ a, s.rxAnswers = a :: t.rxAnswers ∧ t.activity = .idle) ∨
        (t = { s with activity := .receiving tmo } ∧
          (s.rxAnswers = [] ∨ (tmo = .none ∧ s.rxAnswers.head? = some .timedOut))))

/-- A RECEIVE that ends answers the host a frame, none, or a fault, and nothing else (R401, R404). -/
def Obligations.ReceiveAnswersFrameOrNone : Prop :=
  ∀ (tmo : Timeout) (s t : State) (r : Result), exec (.receive tmo) s = .next t →
    t.results = s.results ++ [r] → (∃ v, receiveView r = some v) ∨ ∃ c, r = .fault c
end

