-- ==== Sys2Proof/Laws/Bytes.lean ====
section
/-! SUPPORT. The laws of byte sequences: lengths, the two directions of the big-endian conversion, reads of a
concatenation, and the packed header as one concatenation. -/

namespace Sys2Proof

@[simp] theorem zeros_length (n : Nat) : (zeros n).length = n := by simp [zeros]

theorem zeros_add (m n : Nat) : zeros (m + n) = zeros m ++ zeros n := by simp [zeros, List.replicate_append_replicate]

@[simp] theorem slice_length (B : Bytes) (i j : Nat) : (slice B i j).length = min j B.length - i := by simp [slice]

theorem slice_append (A S B : Bytes) (i j : Nat) (hi : A.length = i) (hj : A.length + S.length = j) :
    slice (A ++ S ++ B) i j = S := by
  subst hi; subst hj
  have h : (A ++ S ++ B).take (A.length + S.length) = A ++ S := by simp [List.take_append]
  rw [slice, h, List.drop_left]

theorem slice_zero (B : Bytes) (j : Nat) : slice B 0 j = B.take j := by simp [slice]

@[simp] theorem be_length (n v : Nat) : (be n v).length = n := by
  induction n with
  | zero => rfl
  | succ n ih => simp [be, ih]

theorem be_one (b : Byte) : be 1 b.toNat = [b] := by simp [be]

theorem be_zero (n : Nat) : be n 0 = zeros n := by
  induction n with
  | zero => rfl
  | succ n ih => simp [be, ih, zeros, List.replicate_succ]

/-- Only the value modulo `256^n` is spelled. -/
theorem be_mod (n v : Nat) : be n (v % 256 ^ n) = be n v := by
  suffices h : ∀ k v, be n (v % 256 ^ (n + k)) = be n v from h 0 v
  induction n with
  | zero => intros; rfl
  | succ n ih =>
    intro k v
    have e : n + 1 + k = n + (k + 1) := by omega
    simp only [be, e, ih (k + 1)]
    congr 1
    rw [pow_add, pow_succ, mul_comm (256 ^ k) 256, Nat.mod_mul_right_div_self]
    apply BitVec.eq_of_toNat_eq
    simp

theorem fromBe_lt (S : Bytes) : fromBe S < 256 ^ S.length := by
  induction S with
  | nil => simp [fromBe]
  | cons b S ih =>
    have hb := b.isLt
    simp only [fromBe, List.length_cons, pow_succ]
    have : b.toNat * 256 ^ S.length ≤ 255 * 256 ^ S.length := Nat.mul_le_mul_right _ (by omega)
    omega

/-- `from_be(be_n(v)) = v` for a value that fits. -/
theorem fromBe_be (n v : Nat) (h : v < 256 ^ n) : fromBe (be n v) = v := by
  induction n generalizing v with
  | zero => simp at h; simp [be, fromBe, h]
  | succ n ih =>
    have hd : v / 256 ^ n < 256 := by
      rw [Nat.div_lt_iff_lt_mul (by positivity)]; rw [pow_succ] at h; linarith
    have hm := ih (v % 256 ^ n) (Nat.mod_lt _ (by positivity))
    rw [be_mod] at hm
    simp only [be, fromBe, be_length, hm, BitVec.toNat_ofNat, Nat.reducePow, Nat.mod_eq_of_lt hd]
    exact Nat.div_add_mod' v (256 ^ n)

/-- `be_len(S)(from_be(S)) = S`. -/
theorem be_fromBe (S : Bytes) : be S.length (fromBe S) = S := by
  induction S with
  | nil => rfl
  | cons b S ih =>
    have hlt := fromBe_lt S
    have hp : 0 < 256 ^ S.length := by positivity
    have hd : (b.toNat * 256 ^ S.length + fromBe S) / 256 ^ S.length = b.toNat := by
      rw [mul_comm, Nat.mul_add_div hp, Nat.div_eq_of_lt hlt, Nat.add_zero]
    have hm : (b.toNat * 256 ^ S.length + fromBe S) % 256 ^ S.length = fromBe S := by
      rw [mul_comm, Nat.mul_add_mod, Nat.mod_eq_of_lt hlt]
    simp only [List.length_cons, be, fromBe, hd]
    rw [← be_mod, hm, ih]
    simp

theorem memRead_append (A S B : Bytes) (off n : Nat) (ho : A.length = off) (hn : S.length = n) :
    memRead (A ++ S ++ B) off n = fromBe S := by
  rw [memRead, slice_append A S B off (off + n) ho (by omega)]

theorem memRead_lt (B : Bytes) (off n : Nat) : memRead B off n < 256 ^ n := by
  refine lt_of_lt_of_le (fromBe_lt _) (Nat.pow_le_pow_right (by omega) ?_)
  rw [slice_length]; omega

theorem be_memRead (B : Bytes) (off n : Nat) (h : off + n ≤ B.length) : be n (memRead B off n) = slice B off (off + n) := by
  have hl : (slice B off (off + n)).length = n := by rw [slice_length]; omega
  have h := be_fromBe (slice B off (off + n))
  rwa [hl] at h

theorem memWrite_append (A S B : Bytes) (off n v : Nat) (ho : A.length = off) (hn : S.length = n) :
    memWrite (A ++ S ++ B) off n v = A ++ be n v ++ B := by
  subst ho; subst hn
  have h1 : (A ++ S ++ B).take A.length = A := by simp
  have h2 : (A ++ S ++ B).drop (A.length + S.length) = B := by simp [List.drop_append]
  rw [memWrite, h1, h2]

@[simp] theorem memWrite_length (B : Bytes) (off n v : Nat) (h : off + n ≤ B.length) :
    (memWrite B off n v).length = B.length := by
  simp [memWrite]; omega

/-- A write into the zero rest of a buffer built from the front. -/
theorem memWrite_zeros (A : Bytes) (off n m v : Nat) (ho : A.length = off) :
    memWrite (A ++ zeros (n + m)) off n v = (A ++ be n v) ++ zeros m := by
  rw [zeros_add, ← List.append_assoc, memWrite_append A (zeros n) (zeros m) off n v ho (zeros_length n)]

/-- The bytes of a header record in table order (R150). -/
def headerBytes (c : Config) (h : WireHeader) : Bytes :=
  be 2 h.packetSize.toNat ++ be 2 h.frameKind.toNat ++ be c.tagBytes h.reservedTag ++ be 4 h.timestampLow.toNat
    ++ be 4 h.timestampHigh.toNat ++ be 1 h.channel.toNat ++ be 1 h.frameSize.toNat ++ be 2 h.frameFlags.toNat
    ++ be 4 h.frameIdRaw.toNat

/-- The nine writes of R201 build the concatenation of the nine fields. -/
theorem packHeader_eq (c : Config) (h : WireHeader) : packHeader c h = headerBytes c h := by
  have e0 : zeros c.hdrBytes = [] ++ zeros (2 + (2 + (c.tagBytes + (4 + (4 + (1 + (1 + (2 + (4 + 0))))))))) := by
    rw [List.nil_append]; congr 1; simp only [Config.hdrBytes]; omega
  simp only [packHeader, headerBytes, e0, Config.offTsLow, Config.offTsHigh, Config.offChannel, Config.offSize,
    Config.offFlags, Config.offId]
  rw [memWrite_zeros _ _ _ _ _ (by simp), memWrite_zeros _ _ _ _ _ (by simp), memWrite_zeros _ _ _ _ _ (by simp),
    memWrite_zeros _ _ _ _ _ (by simp; omega), memWrite_zeros _ _ _ _ _ (by simp; omega),
    memWrite_zeros _ _ _ _ _ (by simp; omega), memWrite_zeros _ _ _ _ _ (by simp; omega),
    memWrite_zeros _ _ _ _ _ (by simp; omega), memWrite_zeros _ _ _ _ _ (by simp; omega)]
  simp [zeros]

@[simp] theorem packHeader_length (c : Config) (h : WireHeader) : (packHeader c h).length = c.hdrBytes := by
  simp [packHeader_eq, headerBytes, Config.hdrBytes]; omega

/-- What UnpackHeader reads of a sequence that is given field by field (R202). -/
theorem unpackHeader_fields (c : Config) (a b tag l u ch sz fl i : Bytes) (ha : a.length = 2) (hb : b.length = 2)
    (ht : tag.length = c.tagBytes) (hl : l.length = 4) (hu : u.length = 4) (hch : ch.length = 1) (hsz : sz.length = 1)
    (hfl : fl.length = 2) (hi : i.length = 4) :
    unpackHeader c (a ++ b ++ tag ++ l ++ u ++ ch ++ sz ++ fl ++ i) =
      { packetSize := BitVec.ofNat 16 (fromBe a), frameKind := BitVec.ofNat 16 (fromBe b), reservedTag := fromBe tag
        timestampLow := BitVec.ofNat 32 (fromBe l), timestampHigh := BitVec.ofNat 32 (fromBe u)
        channel := BitVec.ofNat 8 (fromBe ch), frameSize := BitVec.ofNat 8 (fromBe sz)
        frameFlags := BitVec.ofNat 16 (fromBe fl), frameIdRaw := BitVec.ofNat 32 (fromBe i) } := by
  have r (X Y Z B : Bytes) (off n : Nat) (e : B = X ++ Y ++ Z) (ho : X.length = off) (hn : Y.length = n) :
      memRead B off n = fromBe Y := by rw [e]; exact memRead_append X Y Z off n ho hn
  simp only [unpackHeader, Config.offTsLow, Config.offTsHigh, Config.offChannel, Config.offSize, Config.offFlags,
    Config.offId]
  congr 1
  · rw [r [] a (b ++ tag ++ l ++ u ++ ch ++ sz ++ fl ++ i) _ 0 2 (by simp) (by simp) ha]
  · rw [r a b (tag ++ l ++ u ++ ch ++ sz ++ fl ++ i) _ 2 2 (by simp) ha hb]
  · rw [r (a ++ b) tag (l ++ u ++ ch ++ sz ++ fl ++ i) _ 4 _ (by simp) (by simp; omega) ht]
  · rw [r (a ++ b ++ tag) l (u ++ ch ++ sz ++ fl ++ i) _ _ 4 (by simp) (by simp; omega) hl]
  · rw [r (a ++ b ++ tag ++ l) u (ch ++ sz ++ fl ++ i) _ _ 4 (by simp) (by simp; omega) hu]
  · rw [r (a ++ b ++ tag ++ l ++ u) ch (sz ++ fl ++ i) _ _ 1 (by simp) (by simp; omega) hch]
  · rw [r (a ++ b ++ tag ++ l ++ u ++ ch) sz (fl ++ i) _ _ 1 (by simp) (by simp; omega) hsz]
  · rw [r (a ++ b ++ tag ++ l ++ u ++ ch ++ sz) fl i _ _ 2 (by simp) (by simp; omega) hfl]
  · rw [r (a ++ b ++ tag ++ l ++ u ++ ch ++ sz ++ fl) i [] _ _ 4 (by simp) (by simp; omega) hi]

end Sys2Proof
end

