-- ==== Sys2Proof/Laws/State.lean ====
section
/-! SUPPORT. What each named update of the state leaves in each field: one lemma per field per update. -/

namespace Sys2Proof.Machine

section complete

variable (r : Result) (s : State)

@[simp] theorem complete_cfg : (complete r s).cfg = s.cfg := rfl

@[simp] theorem complete_buf : (complete r s).buf = s.buf := rfl

@[simp] theorem complete_life : (complete r s).life = s.life := rfl

@[simp] theorem complete_fault : (complete r s).fault = s.fault := rfl

@[simp] theorem complete_refused : (complete r s).refused = s.refused := rfl

@[simp] theorem complete_txlog : (complete r s).txlog = s.txlog := rfl

@[simp] theorem complete_warnlog : (complete r s).warnlog = s.warnlog := rfl

@[simp] theorem complete_commands : (complete r s).commands = s.commands := rfl

@[simp] theorem complete_results : (complete r s).results = s.results ++ [r] := rfl

@[simp] theorem complete_rxAnswers : (complete r s).rxAnswers = s.rxAnswers := rfl

@[simp] theorem complete_txAnswers : (complete r s).txAnswers = s.txAnswers := rfl

@[simp] theorem complete_timeDraws : (complete r s).timeDraws = s.timeDraws := rfl

@[simp] theorem complete_activity : (complete r s).activity = .idle := rfl

end complete

section returnOk

variable (v : Value) (s : State)

@[simp] theorem returnOk_cfg : (returnOk v s).cfg = s.cfg := rfl

@[simp] theorem returnOk_buf : (returnOk v s).buf = s.buf := rfl

@[simp] theorem returnOk_life : (returnOk v s).life = s.life := rfl

@[simp] theorem returnOk_fault : (returnOk v s).fault = s.fault := rfl

@[simp] theorem returnOk_refused : (returnOk v s).refused = s.refused := rfl

@[simp] theorem returnOk_txlog : (returnOk v s).txlog = s.txlog := rfl

@[simp] theorem returnOk_warnlog : (returnOk v s).warnlog = s.warnlog := rfl

@[simp] theorem returnOk_commands : (returnOk v s).commands = s.commands := rfl

@[simp] theorem returnOk_results : (returnOk v s).results = s.results ++ [.ok v] := rfl

@[simp] theorem returnOk_rxAnswers : (returnOk v s).rxAnswers = s.rxAnswers := rfl

@[simp] theorem returnOk_txAnswers : (returnOk v s).txAnswers = s.txAnswers := rfl

@[simp] theorem returnOk_timeDraws : (returnOk v s).timeDraws = s.timeDraws := rfl

@[simp] theorem returnOk_activity : (returnOk v s).activity = .idle := rfl

end returnOk

section returnNoFrame

variable (r : NoFrameReason) (s : State)

@[simp] theorem returnNoFrame_cfg : (returnNoFrame r s).cfg = s.cfg := rfl

@[simp] theorem returnNoFrame_buf : (returnNoFrame r s).buf = s.buf := rfl

@[simp] theorem returnNoFrame_life : (returnNoFrame r s).life = s.life := rfl

@[simp] theorem returnNoFrame_fault : (returnNoFrame r s).fault = s.fault := rfl

@[simp] theorem returnNoFrame_refused : (returnNoFrame r s).refused = s.refused := rfl

@[simp] theorem returnNoFrame_txlog : (returnNoFrame r s).txlog = s.txlog := rfl

@[simp] theorem returnNoFrame_warnlog : (returnNoFrame r s).warnlog = s.warnlog := rfl

@[simp] theorem returnNoFrame_commands : (returnNoFrame r s).commands = s.commands := rfl

@[simp] theorem returnNoFrame_results : (returnNoFrame r s).results = s.results ++ [.noFrame r] := rfl

@[simp] theorem returnNoFrame_rxAnswers : (returnNoFrame r s).rxAnswers = s.rxAnswers := rfl

@[simp] theorem returnNoFrame_txAnswers : (returnNoFrame r s).txAnswers = s.txAnswers := rfl

@[simp] theorem returnNoFrame_timeDraws : (returnNoFrame r s).timeDraws = s.timeDraws := rfl

@[simp] theorem returnNoFrame_activity : (returnNoFrame r s).activity = .idle := rfl

end returnNoFrame

section raiseFault

variable (c : FaultCode) (s : State)

@[simp] theorem raiseFault_cfg : (raiseFault c s).cfg = s.cfg := rfl

@[simp] theorem raiseFault_buf : (raiseFault c s).buf = s.buf := rfl

@[simp] theorem raiseFault_life : (raiseFault c s).life = s.life := rfl

@[simp] theorem raiseFault_fault : (raiseFault c s).fault = some c := rfl

@[simp] theorem raiseFault_refused : (raiseFault c s).refused = s.refused := rfl

@[simp] theorem raiseFault_txlog : (raiseFault c s).txlog = s.txlog := rfl

@[simp] theorem raiseFault_warnlog : (raiseFault c s).warnlog = s.warnlog := rfl

@[simp] theorem raiseFault_commands : (raiseFault c s).commands = s.commands := rfl

@[simp] theorem raiseFault_results : (raiseFault c s).results = s.results ++ [.fault c] := rfl

@[simp] theorem raiseFault_rxAnswers : (raiseFault c s).rxAnswers = s.rxAnswers := rfl

@[simp] theorem raiseFault_txAnswers : (raiseFault c s).txAnswers = s.txAnswers := rfl

@[simp] theorem raiseFault_timeDraws : (raiseFault c s).timeDraws = s.timeDraws := rfl

@[simp] theorem raiseFault_activity : (raiseFault c s).activity = .idle := rfl

end raiseFault

section refuse

variable (r : RefuseReason) (s : State)

@[simp] theorem refuse_cfg : (refuse r s).cfg = s.cfg := rfl

@[simp] theorem refuse_buf : (refuse r s).buf = s.buf := rfl

@[simp] theorem refuse_life : (refuse r s).life = s.life := rfl

@[simp] theorem refuse_fault : (refuse r s).fault = s.fault := rfl

@[simp] theorem refuse_refused : (refuse r s).refused = some r := rfl

@[simp] theorem refuse_txlog : (refuse r s).txlog = s.txlog := rfl

@[simp] theorem refuse_warnlog : (refuse r s).warnlog = s.warnlog := rfl

@[simp] theorem refuse_commands : (refuse r s).commands = s.commands := rfl

@[simp] theorem refuse_results : (refuse r s).results = s.results ++ [.refused r] := rfl

@[simp] theorem refuse_rxAnswers : (refuse r s).rxAnswers = s.rxAnswers := rfl

@[simp] theorem refuse_txAnswers : (refuse r s).txAnswers = s.txAnswers := rfl

@[simp] theorem refuse_timeDraws : (refuse r s).timeDraws = s.timeDraws := rfl

@[simp] theorem refuse_activity : (refuse r s).activity = .idle := rfl

end refuse

section warn

variable (w : Warning) (s : State)

@[simp] theorem warn_cfg : (warn w s).cfg = s.cfg := rfl

@[simp] theorem warn_buf : (warn w s).buf = s.buf := rfl

@[simp] theorem warn_life : (warn w s).life = s.life := rfl

@[simp] theorem warn_fault : (warn w s).fault = s.fault := rfl

@[simp] theorem warn_refused : (warn w s).refused = s.refused := rfl

@[simp] theorem warn_txlog : (warn w s).txlog = s.txlog := rfl

@[simp] theorem warn_warnlog : (warn w s).warnlog = s.warnlog ++ [w] := rfl

@[simp] theorem warn_commands : (warn w s).commands = s.commands := rfl

@[simp] theorem warn_results : (warn w s).results = s.results := rfl

@[simp] theorem warn_rxAnswers : (warn w s).rxAnswers = s.rxAnswers := rfl

@[simp] theorem warn_txAnswers : (warn w s).txAnswers = s.txAnswers := rfl

@[simp] theorem warn_timeDraws : (warn w s).timeDraws = s.timeDraws := rfl

@[simp] theorem warn_activity : (warn w s).activity = s.activity := rfl

end warn

section suspend

variable (a : Activity) (s : State)

@[simp] theorem suspend_cfg : (suspend a s).cfg = s.cfg := rfl

@[simp] theorem suspend_buf : (suspend a s).buf = s.buf := rfl

@[simp] theorem suspend_life : (suspend a s).life = s.life := rfl

@[simp] theorem suspend_fault : (suspend a s).fault = s.fault := rfl

@[simp] theorem suspend_refused : (suspend a s).refused = s.refused := rfl

@[simp] theorem suspend_txlog : (suspend a s).txlog = s.txlog := rfl

@[simp] theorem suspend_warnlog : (suspend a s).warnlog = s.warnlog := rfl

@[simp] theorem suspend_commands : (suspend a s).commands = s.commands := rfl

@[simp] theorem suspend_results : (suspend a s).results = s.results := rfl

@[simp] theorem suspend_rxAnswers : (suspend a s).rxAnswers = s.rxAnswers := rfl

@[simp] theorem suspend_txAnswers : (suspend a s).txAnswers = s.txAnswers := rfl

@[simp] theorem suspend_timeDraws : (suspend a s).timeDraws = s.timeDraws := rfl

@[simp] theorem suspend_activity : (suspend a s).activity = a := rfl

end suspend

section drawTime

variable (s : State)

@[simp] theorem drawTime_cfg : (drawTime s).cfg = s.cfg := rfl

@[simp] theorem drawTime_buf : (drawTime s).buf = s.buf := rfl

@[simp] theorem drawTime_life : (drawTime s).life = s.life := rfl

@[simp] theorem drawTime_fault : (drawTime s).fault = s.fault := rfl

@[simp] theorem drawTime_refused : (drawTime s).refused = s.refused := rfl

@[simp] theorem drawTime_txlog : (drawTime s).txlog = s.txlog := rfl

@[simp] theorem drawTime_warnlog : (drawTime s).warnlog = s.warnlog := rfl

@[simp] theorem drawTime_commands : (drawTime s).commands = s.commands := rfl

@[simp] theorem drawTime_results : (drawTime s).results = s.results := rfl

@[simp] theorem drawTime_rxAnswers : (drawTime s).rxAnswers = s.rxAnswers := rfl

@[simp] theorem drawTime_txAnswers : (drawTime s).txAnswers = s.txAnswers := rfl

@[simp] theorem drawTime_timeDraws : (drawTime s).timeDraws = s.timeDraws + 1 := rfl

@[simp] theorem drawTime_activity : (drawTime s).activity = s.activity := rfl

end drawTime

section setReader

variable (b : Bytes) (as : List RxAnswer) (s : State)

@[simp] theorem setReader_cfg : (setReader b as s).cfg = s.cfg := rfl

@[simp] theorem setReader_buf : (setReader b as s).buf = b := rfl

@[simp] theorem setReader_life : (setReader b as s).life = s.life := rfl

@[simp] theorem setReader_fault : (setReader b as s).fault = s.fault := rfl

@[simp] theorem setReader_refused : (setReader b as s).refused = s.refused := rfl

@[simp] theorem setReader_txlog : (setReader b as s).txlog = s.txlog := rfl

@[simp] theorem setReader_warnlog : (setReader b as s).warnlog = s.warnlog := rfl

@[simp] theorem setReader_commands : (setReader b as s).commands = s.commands := rfl

@[simp] theorem setReader_results : (setReader b as s).results = s.results := rfl

@[simp] theorem setReader_rxAnswers : (setReader b as s).rxAnswers = as := rfl

@[simp] theorem setReader_txAnswers : (setReader b as s).txAnswers = s.txAnswers := rfl

@[simp] theorem setReader_timeDraws : (setReader b as s).timeDraws = s.timeDraws := rfl

@[simp] theorem setReader_activity : (setReader b as s).activity = s.activity := rfl

end setReader

end Sys2Proof.Machine
end

