-- ==== Sys2Proof/Laws/Reader.lean ====
section
/-! SUPPORT. What a `READ` can do (spec/43_reader.md R350 to R353): one lemma over the loop, and its form over the
state. -/

namespace Sys2Proof.Machine

@[simp] theorem chunks_nil (n : Nat) : chunks n [] = [] := rfl

@[simp] theorem chunks_cons (n : Nat) (d : Bytes) (ds : List Bytes) : chunks n (d :: ds) = d.take n ++ chunks n ds := rfl

/-- How a `READ` of `n` bytes ended, once it has taken the datagrams `ds` and left the answers `rest` to look at: it
succeeded, timed out, met a socket error, or no admissible answer is there. In the last three the buffer holds
everything that arrived, and that is fewer than `n` bytes. -/
inductive ReadEnded (n : Nat) (tmo : Timeout) (all : Bytes) (rest : List RxAnswer) :
    ReadEnd → Bytes → List RxAnswer → Prop where
  | bytes (out buf : Bytes) (hl : out.length = n) (ha : out ++ buf = all) : ReadEnded n tmo all rest (.bytes out) buf rest
  | timedOut (as : List RxAnswer) (ht : tmo = .finite) (hr : rest = .timedOut :: as) (hl : all.length < n) :
      ReadEnded n tmo all rest .timedOut all as
  | sockErr (as : List RxAnswer) (hr : rest = .sockErr :: as) (hl : all.length < n) :
      ReadEnded n tmo all rest .sockErr all as
  | waiting (hr : rest = [] ∨ ∃ as, tmo = .none ∧ rest = .timedOut :: as) (hl : all.length < n) :
      ReadEnded n tmo all rest .waiting all rest

/-- Everything the loop can do: it takes datagrams only while fewer than `n` bytes are buffered, then it ends. -/
theorem readLoop_ended (n chunk : Nat) (tmo : Timeout) (buf : Bytes) (answers : List RxAnswer) :
    ∃ ds rest, answers = ds.map .dgram ++ rest ∧
      (∀ ds' d, ds = ds' ++ [d] → (buf ++ chunks chunk ds').length < n) ∧
      ReadEnded n tmo (buf ++ chunks chunk ds) rest (readLoop n chunk tmo buf answers).1
        (readLoop n chunk tmo buf answers).2.1 (readLoop n chunk tmo buf answers).2.2 := by
  induction answers generalizing buf with
  | nil =>
    refine ⟨[], [], rfl, by simp, ?_⟩
    by_cases h : n ≤ buf.length
    · simp only [readLoop, h, if_true]
      exact .bytes _ _ (by simp [h]) (by simp)
    · simp only [readLoop, h, if_false, chunks_nil, List.append_nil]
      exact .waiting (.inl rfl) (by omega)
  | cons a as ih =>
    by_cases h : n ≤ buf.length
    · refine ⟨[], a :: as, rfl, by simp, ?_⟩
      simp only [readLoop, h, if_true]
      exact .bytes _ _ (by simp [h]) (by simp)
    · cases a with
      | dgram d =>
        obtain ⟨ds, rest, ha, hb, he⟩ := ih (buf ++ d.take chunk)
        have e : readLoop n chunk tmo buf (.dgram d :: as) = readLoop n chunk tmo (buf ++ d.take chunk) as := by
          cases tmo <;> simp [readLoop, h, admits]
        refine ⟨d :: ds, rest, by simp [ha], ?_, ?_⟩
        · intro ds' d' hd
          cases ds' with
          | nil => simp; omega
          | cons x xs =>
            simp only [List.cons_append, List.cons.injEq] at hd
            have := hb xs d' hd.2
            simpa [← hd.1, List.append_assoc] using this
        · rw [e, chunks_cons, ← List.append_assoc]
          exact he
      | timedOut =>
        refine ⟨[], .timedOut :: as, rfl, by simp, ?_⟩
        cases tmo with
        | none =>
          simp only [readLoop, h, if_false, admits, Bool.false_eq_true, chunks_nil, List.append_nil]
          exact .waiting (.inr ⟨as, rfl, rfl⟩) (by omega)
        | finite =>
          simp only [readLoop, h, if_false, admits, if_true, chunks_nil, List.append_nil]
          exact .timedOut as rfl rfl (by omega)
      | sockErr =>
        refine ⟨[], .sockErr :: as, rfl, by simp, ?_⟩
        have e : readLoop n chunk tmo buf (.sockErr :: as) = (.sockErr, buf, as) := by
          cases tmo <;> simp [readLoop, h, admits]
        rw [e, chunks_nil, List.append_nil]
        exact .sockErr as rfl (by omega)

/-- One receive of a `READ` that lacks bytes (R350, R352). -/
theorem readBytes_receive {n : Nat} {tmo : Timeout} {s : State} {d : Bytes} {as : List RxAnswer} (hn : s.buf.length < n)
    (ha : s.rxAnswers = .dgram d :: as) :
    readBytes n tmo s = readBytes n tmo { s with buf := s.buf ++ d.take s.cfg.chunkBytes, rxAnswers := as } := by
  have := Nat.not_le_of_lt hn
  cases tmo <;> simp [readBytes, readLoop, ha, this, admits, setReader]

/-- While fewer than `n` bytes have arrived, a `READ` of `n` bytes takes the datagrams `ds` one after another (R350,
R352). -/
theorem readBytes_receives (n : Nat) (tmo : Timeout) (s : State) (ds : List Bytes) (rest : List RxAnswer)
    (ha : s.rxAnswers = ds.map .dgram ++ rest) (hl : (s.buf ++ chunks s.cfg.chunkBytes ds).length < n) :
    readBytes n tmo s = readBytes n tmo { s with buf := s.buf ++ chunks s.cfg.chunkBytes ds, rxAnswers := rest } := by
  induction ds generalizing s with
  | nil =>
    obtain rfl : s.rxAnswers = rest := ha
    rw [chunks_nil, List.append_nil]
  | cons d ds ih =>
    have hn : s.buf.length < n := by simp only [List.length_append] at hl; omega
    rw [chunks_cons, ← List.append_assoc] at hl ⊢
    exact (readBytes_receive hn ha).trans (ih { s with buf := s.buf ++ d.take s.cfg.chunkBytes, rxAnswers := _ } rfl hl)

/-- A `READ` that finds its bytes buffered makes no receive (R350). -/
theorem read_buffered (n : Nat) (tmo : Timeout) (s : State) (h : n ≤ s.buf.length) :
    readBytes n tmo s = (.bytes (s.buf.take n), { s with buf := s.buf.drop n }) := by
  unfold readBytes
  cases ha : s.rxAnswers <;> simp [readLoop, h, setReader, ← ha]

/-- A `READ` of `n` bytes that the datagrams `ds` satisfy takes the first `n` bytes that arrived and leaves the others,
buffered or in datagrams not yet received (R350, R352). -/
theorem readBytes_satisfied (n : Nat) (tmo : Timeout) (s : State) (ds : List Bytes) (rest : List RxAnswer)
    (p part : Bytes) (ha : s.rxAnswers = ds.map .dgram ++ rest) (hp : p.length = n)
    (hall : s.buf ++ chunks s.cfg.chunkBytes ds = p ++ part) :
    ∃ buf ds', buf ++ chunks s.cfg.chunkBytes ds' = part ∧
      readBytes n tmo s = (.bytes p, { s with buf := buf, rxAnswers := ds'.map .dgram ++ rest }) := by
  induction ds generalizing s with
  | nil =>
    rw [chunks_nil, List.append_nil] at hall
    obtain rfl : s.rxAnswers = rest := ha
    exact ⟨part, [], List.append_nil _, by rw [read_buffered n tmo s (by simp [hall, hp])]; simp [hall, ← hp]⟩
  | cons d ds ih =>
    by_cases hn : n ≤ s.buf.length
    · refine ⟨s.buf.drop n, d :: ds, ?_, ?_⟩
      · have := congrArg (List.drop n) hall
        rwa [List.drop_append_of_le_length hn, ← hp, List.drop_left, hp] at this
      · have := congrArg (List.take n) hall
        rw [List.take_append_of_le_length hn, ← hp, List.take_left, hp] at this
        rw [read_buffered n tmo s hn, this, ← ha]
    · rw [chunks_cons, ← List.append_assoc] at hall
      obtain ⟨buf, ds', h1, h2⟩ := ih { s with buf := s.buf ++ d.take s.cfg.chunkBytes, rxAnswers := _ } rfl hall
      exact ⟨buf, ds', h1, (readBytes_receive (Nat.lt_of_not_le hn) ha).trans h2⟩

/-- Everything a `READ` can do to the state: it changes the buffer and the answers, as `ReadEnded` says. -/
theorem read_ended {n : Nat} {tmo : Timeout} {s t : State} {e : ReadEnd} (h : readBytes n tmo s = (e, t)) :
    ∃ ds rest, s.rxAnswers = ds.map .dgram ++ rest ∧
      (∀ ds' d, ds = ds' ++ [d] → (s.buf ++ chunks s.cfg.chunkBytes ds').length < n) ∧
      ReadEnded n tmo (s.buf ++ chunks s.cfg.chunkBytes ds) rest e t.buf t.rxAnswers ∧
      t = setReader t.buf t.rxAnswers s := by
  obtain ⟨rfl, rfl⟩ : (readBytes n tmo s).1 = e ∧ (readBytes n tmo s).2 = t := by simp [h]
  obtain ⟨ds, rest, ha, hb, he⟩ := readLoop_ended n s.cfg.chunkBytes tmo s.buf s.rxAnswers
  exact ⟨ds, rest, ha, hb, he, rfl⟩

/-- What a `READ` leaves buffered, whatever its end: at most one chunk less a byte, or fewer than it wanted, or what was
there (R354). -/
theorem read_buf_le {n : Nat} {tmo : Timeout} {s t : State} {e : ReadEnd} (h : readBytes n tmo s = (e, t)) :
    t.buf.length ≤ max s.buf.length (max (s.cfg.chunkBytes - 1) (n - 1)) := by
  obtain ⟨ds, rest, -, hb, he, -⟩ := read_ended h
  generalize t.buf = tb at he ⊢
  generalize t.rxAnswers = ta at he
  cases he with
  | bytes out _ hl ha =>
    have hlen : out.length + tb.length = (s.buf ++ chunks s.cfg.chunkBytes ds).length := by rw [← ha, List.length_append]
    cases ds using List.reverseRecOn with
    | nil => simp at hlen; omega
    | append_singleton ds' d =>
      have := hb ds' d rfl
      simp [chunks, List.length_append] at hlen this
      omega
  | timedOut => simp only [List.length_append] at *; omega
  | sockErr => simp only [List.length_append] at *; omega
  | waiting => simp only [List.length_append] at *; omega

end Sys2Proof.Machine
end

