-- ==== Sys2Proof/Laws/Kinds.lean ====
section
/-! SUPPORT. What the frame kinds and RECEIVE can do (spec/42_decoder.md R301, R302): one lemma per stage, each saying
once how the stage can end. -/

namespace Sys2Proof.Machine

/-- The reads made so far changed at most the buffer and the answers: answers are taken from the front, and under a
legal configuration the buffer keeps its bound (R354). -/
structure Reads (s u : State) : Prop where
  only : u = setReader u.buf u.rxAnswers s
  front : u.rxAnswers <:+ s.rxAnswers
  bound : s.cfg.Legal → u.buf.length ≤ max s.buf.length (max (s.cfg.chunkBytes - 1) 63)

theorem Reads.refl (s : State) : Reads s s := ⟨rfl, List.suffix_refl _, fun _ => by omega⟩

theorem Reads.cfg_eq {s u : State} (h : Reads s u) : u.cfg = s.cfg := by rw [h.only, setReader_cfg]

theorem Reads.trans {s u v : State} (h : Reads s u) (k : Reads u v) : Reads s v where
  only := by rw [k.only, h.only]; rfl
  front := k.front.trans h.front
  bound := fun l => by
    have h1 := h.bound l
    have h2 := k.bound (h.cfg_eq ▸ l)
    rw [h.cfg_eq] at h2
    omega

/-- A `READ` of at most 64 bytes under a legal configuration is such a read, and what it returns has its length. -/
theorem reads_of_read {n : Nat} {tmo : Timeout} {s t : State} {e : ReadEnd} (h : readBytes n tmo s = (e, t))
    (hn : s.cfg.Legal → n ≤ 64) : Reads s t ∧ ∀ out, e = .bytes out → out.length = n := by
  have hb := read_buf_le h
  obtain ⟨ds, rest, ha, -, he, ht⟩ := read_ended h
  suffices hs : t.rxAnswers <:+ rest ∧ ∀ out, e = .bytes out → out.length = n from
    ⟨⟨ht, ha ▸ hs.1.trans (List.suffix_append _ _), fun l => by have := hn l; omega⟩, hs.2⟩
  generalize t.buf = tb at he
  generalize t.rxAnswers = ta at he ⊢
  cases he with
  | bytes out buf hl hall => exact ⟨List.suffix_refl _, fun _ h => by cases h; exact hl⟩
  | timedOut as ht hr hl => exact ⟨hr ▸ List.suffix_cons _ _, nofun⟩
  | sockErr as hr hl => exact ⟨hr ▸ List.suffix_cons _ _, nofun⟩
  | waiting hr hl => exact ⟨List.suffix_refl _, nofun⟩

/-- A payload already held by the decode in progress is long enough for the header. -/
def PayloadHeld (h : WireHeader) (s : State) : Prop :=
  ∀ tmo hdr p, s.activity = .decoding tmo hdr (some p) → h.frameSize.toNat ≤ p.length

/-- A DATAGRAM_ATOMIC decode is in progress. -/
def Parsing (s : State) : Prop := ∃ d, s.activity = .parsing d

theorem not_parsing {s : State} {tmo : Timeout} {hdr : Bytes} {got : Option Bytes}
    (h : s.activity = .decoding tmo hdr got) : ¬ Parsing s := by
  rintro ⟨d, hd⟩
  rw [hd] at h
  cases h

/-- How an arm of a defined kind can end. A DATAGRAM_ATOMIC decode makes no read. -/
inductive ArmEnds (cls : FrameClass) (h : WireHeader) (s : State) : State → Prop where
  | waits (u : State) (tmo : Timeout) (hdr : Bytes) (got old : Option Bytes) (hu : Reads s u)
      (ha : s.activity = .decoding tmo hdr old)
      (hg : ∀ p, got = some p → PayloadHeld h s → h.frameSize.toNat ≤ p.length) :
      ArmEnds cls h s (suspend (.decoding tmo hdr got) u)
  | timeout (u : State) (hu : Reads s u) (ha : ¬ Parsing s) : ArmEnds cls h s (returnNoFrame .timeout u)
  | fault (u : State) (c : FaultCode) (hu : Reads s u) (ha : Parsing s → u = s)
      (hc : c = .socket ∨ checkSize cls h.frameSize = some c) : ArmEnds cls h s (raiseFault c u)
  | underflow (d : Bytes) (got need : Nat) (ha : s.activity = .parsing d) :
      ArmEnds cls h s (returnNoFrame .underflow (warn (.underflow got need) s))
  | frame (u : State) (p : Bytes) (hu : Reads s u) (ha : Parsing s → u = s) (hs : checkSize cls h.frameSize = none)
      (hp : PayloadHeld h s → h.frameSize.toNat ≤ p.length) : ArmEnds cls h s (returnFrame cls h p u)

theorem fetchSize_le (cls : FrameClass) (F : Byte) (h : checkSize cls F = none) :
    F.toNat ≤ fetchSize cls F ∧ fetchSize cls F ≤ 64 := by
  cases cls with
  | classic =>
    have hF : ¬ maxClassicDlc < F.toNat := fun hF => by rw [checkSize, if_pos hF] at h; cases h
    exact ⟨Nat.le_of_not_lt hF, by simp [fetchSize, classicWirePayload]⟩
  | fd =>
    have hF : ¬ maxFdDlc < F.toNat := fun hF => by rw [checkSize, if_pos hF] at h; cases h
    exact ⟨Nat.le_refl _, Nat.le_of_not_lt hF⟩

theorem decodeTrailer_ends {cls : FrameClass} {h : WireHeader} {s u : State} (crc : Bool) (tmo : Timeout)
    (hdr p : Bytes) {old : Option Bytes} (hu : Reads s u) (ha : s.activity = .decoding tmo hdr old)
    (hs : checkSize cls h.frameSize = none) (hp : PayloadHeld h s → h.frameSize.toNat ≤ p.length) :
    ArmEnds cls h s (decodeTrailer cls crc h tmo hdr p u) := by
  have np : Parsing s → ∀ P : Prop, P := fun hp => absurd hp (not_parsing ha)
  unfold decodeTrailer
  split
  · have hr := fun e v (hrd : readBytes crcBytes tmo u = (e, v)) => hu.trans (reads_of_read hrd fun _ => by decide).1
    split
    next out v hrd => exact .frame v p (hr _ v hrd) (fun h => np h _) hs hp
    next v hrd => exact .timeout v (hr _ v hrd) (not_parsing ha)
    next v hrd => exact .fault v .socket (hr _ v hrd) (fun h => np h _) (.inl rfl)
    next v hrd => exact .waits v tmo hdr (some p) old (hr _ v hrd) ha fun q hq => by cases hq; exact hp
  · exact .frame u p hu (fun h => np h _) hs hp

theorem decodePayload_ends {cls : FrameClass} {h : WireHeader} {s : State} (crc : Bool) (tmo : Timeout) (hdr : Bytes)
    (got : Option Bytes) (ha : s.activity = .decoding tmo hdr got) (hs : checkSize cls h.frameSize = none) :
    ArmEnds cls h s (decodePayload cls crc h tmo hdr got s) := by
  unfold decodePayload
  split
  next p => exact decodeTrailer_ends crc tmo hdr p (.refl s) ha hs fun hh => hh tmo hdr p ha
  · have hr := fun e v (hrd : readBytes (fetchSize cls h.frameSize) tmo s = (e, v)) =>
      reads_of_read hrd fun _ => (fetchSize_le cls _ hs).2
    split
    next p v hrd =>
      have := (hr _ v hrd).2 p rfl
      exact decodeTrailer_ends crc tmo hdr p (hr _ v hrd).1 ha hs fun _ => this ▸ (fetchSize_le cls _ hs).1
    next v hrd => exact .timeout v (hr _ v hrd).1 (not_parsing ha)
    next v hrd => exact .fault v .socket (hr _ v hrd).1 (fun hp => absurd hp (not_parsing ha)) (.inl rfl)
    next v hrd => exact .waits v tmo hdr none none (hr _ v hrd).1 ha (by simp)

theorem parseBody_ends {cls : FrameClass} {h : WireHeader} {s : State} (crc : Bool) (d : Bytes)
    (ha : s.activity = .parsing d) (hs : checkSize cls h.frameSize = none) :
    ArmEnds cls h s (parseBody cls crc h d s) := by
  unfold parseBody
  have hf := (fetchSize_le cls _ hs).1
  cases crc <;> simp only [if_true, if_false, Bool.false_eq_true] <;> split
  all_goals first
    | exact .underflow d _ _ ha
    | exact .frame s _ (.refl s) (fun _ => rfl) hs fun _ => by rw [slice_length]; omega

/-- Everything an arm of a defined kind can do. -/
theorem decodeArm_ends {cls : FrameClass} {crc : Bool} {h : WireHeader} {s t : State}
    (hx : decodeArm cls crc h s = .next t) : ArmEnds cls h s t := by
  unfold decodeArm at hx
  split at hx
  next tmo hdr got ha =>
    split at hx
    next c hc => cases hx; exact .fault s c (.refl s) (fun _ => rfl) (.inr hc)
    next hs => cases hx; exact decodePayload_ends crc tmo hdr got ha hs
  next d ha =>
    split at hx
    next c hc => cases hx; exact .fault s c (.refl s) (fun _ => rfl) (.inr hc)
    next hs => cases hx; exact parseBody_ends crc d ha hs
  all_goals cases hx

/-- How a frame kind can end: as an arm of its class, or, for an unknown kind, with the warning. -/
inductive KindEnds (h : WireHeader) (s : State) : State → Prop where
  | arm (cls : FrameClass) (t : State) (he : ArmEnds cls h s t) : KindEnds h s t
  | unknown : KindEnds h s (dropUnknown h s)

/-- Everything an unknown kind can do. -/
theorem execKindUnknown_ends {h : WireHeader} {s t : State} (hx : execKindUnknown h s = .next t) : KindEnds h s t := by
  unfold execKindUnknown at hx
  split at hx <;> cases hx <;> exact .unknown

/-- Everything the dispatch on `frame_kind` can do. -/
theorem dispatchKind_ends {h : WireHeader} {s t : State} (hx : dispatchKind h s = .next t) : KindEnds h s t := by
  unfold dispatchKind execKindCanFrame execKindCanFrameCrc execKindCanFdFrame execKindCanFdFrameCrc at hx
  split at hx
  · exact .arm .classic t (decodeArm_ends hx)
  split at hx
  · exact .arm .classic t (decodeArm_ends hx)
  split at hx
  · exact .arm .fd t (decodeArm_ends hx)
  split at hx
  · exact .arm .fd t (decodeArm_ends hx)
  · exact execKindUnknown_ends hx

end Sys2Proof.Machine
end

