-- ==== Sys2Proof/Laws/Bus.lean ====
section
/-! SUPPORT. What the bus operations and an instruction as a whole can do: one lemma per operation. -/

namespace Sys2Proof.Machine

/-- The dispatch inside RECEIVE runs the instruction the header's kind selects. -/
theorem dispatchKind_eq_exec (h : WireHeader) (s : State) : dispatchKind h s = exec (kindInstr h) s := by
  unfold dispatchKind kindInstr
  repeat' split
  all_goals rfl

/-- How a RECEIVE can end (R401, R301, R302). -/
inductive ReceiveEnds (s : State) : State → Prop where
  | closed (hl : s.life = .closed) : ReceiveEnds s (raiseFault .closed s)
  | waits (u : State) (tmo : Timeout) (hu : Reads s u) (hl : s.life = .opened)
      (hb : s.cfg.readerMode = .datagramAtomic → u.buf = s.buf) : ReceiveEnds s (suspend (.receiving tmo) u)
  | timeout (u : State) (hu : Reads s u) (hl : s.life = .opened)
      (hb : s.cfg.readerMode = .datagramAtomic → u.buf = s.buf) : ReceiveEnds s (returnNoFrame .timeout u)
  | socket (u : State) (hu : Reads s u) (hl : s.life = .opened)
      (hb : s.cfg.readerMode = .datagramAtomic → u.buf = s.buf) : ReceiveEnds s (raiseFault .socket u)
  | underflow (u : State) (got need : Nat) (hu : Reads s u) (hl : s.life = .opened)
      (hm : s.cfg.readerMode = .datagramAtomic) (hb : u.buf = s.buf) :
      ReceiveEnds s (returnNoFrame .underflow (warn (.underflow got need) u))
  | stream (u t : State) (tmo : Timeout) (hdr : Bytes) (hu : Reads s u) (hl : s.life = .opened)
      (hm : s.cfg.readerMode = .streamLoop) (hh : hdr.length = s.cfg.hdrBytes)
      (hx : dispatchKind (unpackHeader s.cfg hdr) (suspend (.decoding tmo hdr none) u) = .next t) : ReceiveEnds s t
  | atomic (u t : State) (d : Bytes) (hu : Reads s u) (hl : s.life = .opened)
      (hm : s.cfg.readerMode = .datagramAtomic) (hb : u.buf = s.buf) (hh : s.cfg.hdrBytes ≤ d.length)
      (hx : dispatchKind (unpackHeader s.cfg (slice d 0 s.cfg.hdrBytes)) (suspend (.parsing d) u) = .next t) :
      ReceiveEnds s t

theorem Config.hdrBytes_le {c : Config} (h : c.Legal) : c.hdrBytes ≤ 64 := by
  rcases h with ⟨h | h, -⟩ <;> simp [Config.hdrBytes, h]

theorem rxReceive_reads {tmo : Timeout} {s u : State} {a : RxAnswer} (h : rxReceive tmo s = some (a, u)) :
    Reads s u ∧ u.buf = s.buf := by
  unfold rxReceive at h
  split at h
  · cases h
  next b as ha =>
    split at h
    · cases h
      exact ⟨⟨rfl, ha ▸ List.suffix_cons _ _, fun _ => le_max_left _ _⟩, rfl⟩
    · cases h

/-- Everything a RECEIVE can do. -/
theorem execReceive_ends {tmo : Timeout} {s t : State} (hx : execReceive tmo s = .next t) : ReceiveEnds s t := by
  unfold execReceive at hx
  split at hx
  next hl => cases hx; exact .closed hl
  next hl =>
    split at hx
    next hm =>
      have nm : s.cfg.readerMode = .datagramAtomic → ∀ P : Prop, P := fun h => by rw [hm] at h; cases h
      unfold decodeStream at hx
      have hr := fun e v (hrd : readBytes s.cfg.hdrBytes tmo s = (e, v)) => reads_of_read hrd Config.hdrBytes_le
      split at hx
      next r v hrd =>
        obtain ⟨hv, hlen⟩ := hr _ v hrd
        rw [hv.cfg_eq] at hx
        exact .stream v t tmo r hv hl hm (hlen r rfl) hx
      next v hrd => cases hx; exact .timeout v (hr _ v hrd).1 hl fun h => nm h _
      next v hrd => cases hx; exact .socket v (hr _ v hrd).1 hl fun h => nm h _
      next v hrd => cases hx; exact .waits v tmo (hr _ v hrd).1 hl fun h => nm h _
    next hm =>
      unfold decodeAtomic at hx
      split at hx
      · cases hx; exact .waits s tmo (.refl s) hl fun _ => rfl
      next v hrx => cases hx; exact .timeout v (rxReceive_reads hrx).1 hl fun _ => (rxReceive_reads hrx).2
      next v hrx => cases hx; exact .socket v (rxReceive_reads hrx).1 hl fun _ => (rxReceive_reads hrx).2
      next d0 v hrx =>
        obtain ⟨hv, hb⟩ := rxReceive_reads hrx
        simp only [hv.cfg_eq] at hx
        split at hx
        · cases hx; exact .underflow v _ _ hv hl hm hb
        · exact .atomic v t _ hv hl hm hb (by omega) hx

/-- How a SEND can end (R400). -/
inductive SendEnds (f : CanFrame) (s : State) : State → Prop where
  | closed (hl : s.life = .closed) : SendEnds f s (raiseFault .closed s)
  | precond (hl : s.life = .opened) (hv : validForEncode f = false) : SendEnds f s (refuse .encodePrecond s)
  | waits (hl : s.life = .opened) (hv : validForEncode f = true) (ha : s.txAnswers = []) :
      SendEnds f s (suspend (.sending f) s)
  | sent (as : List TxAnswer) (hl : s.life = .opened) (hv : validForEncode f = true) (ha : s.txAnswers = .sent :: as) :
      SendEnds f s (returnOk .unit { s with txAnswers := as, txlog := s.txlog ++ [encodeDatagram s.cfg f] })
  | socket (as : List TxAnswer) (hl : s.life = .opened) (hv : validForEncode f = true)
      (ha : s.txAnswers = .sockErr :: as) : SendEnds f s (raiseFault .socket { s with txAnswers := as })

/-- Everything a SEND can do. -/
theorem execSend_ends {f : CanFrame} {s t : State} (hx : execSend f s = .next t) : SendEnds f s t := by
  unfold execSend transmit at hx
  split at hx
  next hl => cases hx; exact .closed hl
  next hl =>
    split at hx
    next hv =>
      split at hx
      next ha => cases hx; exact .waits hl hv ha
      next as ha => cases hx; exact .sent as hl hv ha
      next as ha => cases hx; exact .socket as hl hv ha
    next hv => cases hx; exact .precond hl (by simpa using hv)

/-- Everything a header accessor can do. -/
theorem onHeader_ends {hdr : Bytes} {f : Config → WireHeader → Value} {s t : State} (hx : onHeader hdr f s = .next t) :
    (hdr.length = s.cfg.hdrBytes ∧ t = returnOk (f s.cfg (unpackHeader s.cfg hdr)) s) ∨
      (hdr.length ≠ s.cfg.hdrBytes ∧ t = refuse .badOperand s) := by
  unfold onHeader at hx
  split at hx
  next h => cases hx; exact .inl ⟨h, rfl⟩
  next h => cases hx; exact .inr ⟨h, rfl⟩

/-- Everything ENCODE can do. -/
theorem execEncode_ends {f : CanFrame} {s t : State} (hx : execEncode f s = .next t) :
    t = returnOk (.bytes (encodeDatagram s.cfg f)) s ∨ t = refuse .encodePrecond s := by
  unfold execEncode at hx
  split at hx <;> cases hx <;> simp

/-- Everything one instruction can do. -/
inductive ExecEnds (s : State) : Instr → State → Prop where
  | ok (i : Instr) (v : Value) (hi : i.space = .command) (hv : ∀ g, v ≠ .frame g) : ExecEnds s i (returnOk v s)
  | refuse (i : Instr) (r : RefuseReason) : ExecEnds s i (refuse r s)
  | send (f : CanFrame) (t : State) (h : SendEnds f s t) : ExecEnds s (.send f) t
  | receive (tmo : Timeout) (t : State) (h : ReceiveEnds s t) : ExecEnds s (.receive tmo) t
  | shutdown : ExecEnds s .shutdown (returnOk .unit (closeBlock s))
  | kind (i : Instr) (h : WireHeader) (t : State) (hi : i.space = .wire)
      (hk : i = .kindCanFrame h ∨ i = .kindCanFrameCrc h ∨ i = .kindCanFdFrame h ∨ i = .kindCanFdFrameCrc h ∨
        i = .kindUnknown h)
      (he : KindEnds h s t) : ExecEnds s i t

theorem exec_ends {i : Instr} {s t : State} (hx : exec i s = .next t) : ExecEnds s i t := by
  have acc (hdr : Bytes) (f : Config → WireHeader → Value) (i : Instr) (hi : i.space = .command)
      (hf : ∀ c h g, f c h ≠ .frame g) (h : onHeader hdr f s = .next t) : ExecEnds s i t := by
    rcases onHeader_ends h with ⟨-, rfl⟩ | ⟨-, rfl⟩
    · exact .ok i _ hi (hf _ _)
    · exact .refuse i _
  cases i with
  | encode f =>
    rcases execEncode_ends hx with rfl | rfl
    · exact .ok _ _ rfl nofun
    · exact .refuse _ _
  | send f => exact .send f t (execSend_ends hx)
  | receive tmo => exact .receive tmo t (execReceive_ends hx)
  | shutdown => cases hx; exact .shutdown
  | isRemoteRequest hdr => exact acc hdr (fun _ h => .bool h.remoteRequest) _ rfl (fun _ _ _ e => by cases e) hx
  | isFdFlagged hdr => exact acc hdr (fun _ h => .bool h.fdFlagged) _ rfl (fun _ _ _ e => by cases e) hx
  | isBitrateSwitch hdr => exact acc hdr (fun _ h => .bool h.bitrateSwitch) _ rfl (fun _ _ _ e => by cases e) hx
  | isErrorState hdr => exact acc hdr (fun _ h => .bool h.errorState) _ rfl (fun _ _ _ e => by cases e) hx
  | isExtendedId hdr => exact acc hdr (fun _ h => .bool h.extendedId) _ rfl (fun _ _ _ e => by cases e) hx
  | getId hdr => exact acc hdr (fun c h => .word (h.id c)) _ rfl (fun _ _ _ e => by cases e) hx
  | summary hdr => exact acc hdr (fun c h => .text (summaryText c h)) _ rfl (fun _ _ _ e => by cases e) hx
  | illegal cmd => cases hx; exact .refuse _ _
  | kindCanFrame h => exact .kind _ h t rfl (by simp) (.arm .classic t (decodeArm_ends hx))
  | kindCanFrameCrc h => exact .kind _ h t rfl (by simp) (.arm .classic t (decodeArm_ends hx))
  | kindCanFdFrame h => exact .kind _ h t rfl (by simp) (.arm .fd t (decodeArm_ends hx))
  | kindCanFdFrameCrc h => exact .kind _ h t rfl (by simp) (.arm .fd t (decodeArm_ends hx))
  | kindUnknown h => exact .kind _ h t rfl (by simp) (execKindUnknown_ends hx)

end Sys2Proof.Machine
end

