-- ==== Sys2Proof/Laws/Decode.lean ====
section
/-! SUPPORT. The laws of the command decoder's parts: the opcode map and the frame descriptor in both directions, the
flags byte, and the assembler's flag set. -/

namespace Sys2Proof

/-- An opcode the map reads is the opcode it writes. -/
theorem opcodeOf_some {b : Byte} {o : Opcode} (h : opcodeOf b = some o) : b = o.byte := by
  unfold opcodeOf at h
  repeat' split at h
  all_goals first | (cases h; assumption) | cases h

@[simp] theorem opcodeOf_byte (o : Opcode) : opcodeOf o.byte = some o := by
  cases o <;> decide

/-- The bits of the flags byte, and nothing above them (R181). -/
theorem flagByte_bits (f : CanFrame) :
    f.flagByte.toNat < 32 ∧ f.flagByte.getLsbD 0 = f.extendedId ∧ f.flagByte.getLsbD 1 = f.remoteFrame ∧
      f.flagByte.getLsbD 2 = f.errorFrame ∧ f.flagByte.getLsbD 3 = f.isFd ∧ f.flagByte.getLsbD 4 = f.bitrateSwitch := by
  unfold CanFrame.flagByte
  cases f.extendedId <;> cases f.remoteFrame <;> cases f.errorFrame <;> cases f.isFd <;> cases f.bitrateSwitch <;> decide

theorem be_four (v : Nat) :
    be 4 v = [BitVec.ofNat 8 (v / 256 ^ 3), BitVec.ofNat 8 (v / 256 ^ 2), BitVec.ofNat 8 (v / 256 ^ 1),
      BitVec.ofNat 8 (v / 256 ^ 0)] := by
  simp [be]

/-- A frame a descriptor can spell decodes from its descriptor. -/
theorem decodeFrame_encodeFrame (f : CanFrame) (h : f.describable = true) : decodeFrame (encodeFrame f) = some f := by
  simp only [CanFrame.describable, Bool.and_eq_true, beq_iff_eq] at h
  obtain ⟨hl, ht⟩ := h
  obtain ⟨l, e, r, er, fd, brs⟩ := flagByte_bits f
  have hb := fromBe_be 4 f.arbitrationId.toNat f.arbitrationId.isLt
  rw [be_four] at hb
  simp only [encodeFrame, be_four, List.cons_append, List.nil_append, decodeFrame, hl, l, and_self, if_true, e, r, er, fd,
    brs, hb]
  cases f
  simp_all

/-- A flags byte without reserved bits is the one its five bits write. -/
theorem flagByte_of_bits (fl : Byte) (h : fl.toNat < 32) :
    ((if fl.getLsbD 0 then 0x01 else 0) ||| (if fl.getLsbD 1 then 0x02 else 0) ||| (if fl.getLsbD 2 then 0x04 else 0)
      ||| (if fl.getLsbD 3 then 0x08 else 0) ||| (if fl.getLsbD 4 then 0x10 else 0) : Byte) = fl := by
  revert fl
  decide

/-- What decodes as a descriptor is the descriptor of the frame it decodes to. -/
theorem encodeFrame_of_decodeFrame {rest : Bytes} {f : CanFrame} (h : decodeFrame rest = some f) :
    f.describable = true ∧ encodeFrame f = rest := by
  unfold decodeFrame at h
  split at h
  next a b c d dlc fl data =>
    split at h
    next hc =>
      cases h
      have hbe := be_fromBe [a, b, c, d]
      have hlt := fromBe_lt [a, b, c, d]
      refine ⟨by simp [CanFrame.describable, hc.1], ?_⟩
      simp only [encodeFrame, CanFrame.flagByte, flagByte_of_bits fl hc.2, BitVec.toNat_ofNat]
      rw [Nat.mod_eq_of_lt (by simpa using hlt)]
      simp only [List.length_cons, List.length_nil] at hbe
      rw [hbe]
      rfl
    next => cases h
  next => cases h

/-- The flag set's bits, and nothing above them (R187). -/
theorem flagSet_bits (names : List FlagName) :
    (flagSet names).toNat < 32 ∧ (flagSet names).getLsbD 0 = decide (.ext ∈ names) ∧
      (flagSet names).getLsbD 1 = decide (.rtr ∈ names) ∧ (flagSet names).getLsbD 2 = decide (.err ∈ names) ∧
      (flagSet names).getLsbD 3 = decide (.fd ∈ names) ∧ (flagSet names).getLsbD 4 = decide (.brs ∈ names) := by
  have gen (ns : List FlagName) : ∀ b : Byte, b.toNat < 32 →
      (ns.foldl (fun b n => b ||| n.mask) b).toNat < 32 ∧
        (ns.foldl (fun b n => b ||| n.mask) b).getLsbD 0 = (b.getLsbD 0 || decide (.ext ∈ ns)) ∧
        (ns.foldl (fun b n => b ||| n.mask) b).getLsbD 1 = (b.getLsbD 1 || decide (.rtr ∈ ns)) ∧
        (ns.foldl (fun b n => b ||| n.mask) b).getLsbD 2 = (b.getLsbD 2 || decide (.err ∈ ns)) ∧
        (ns.foldl (fun b n => b ||| n.mask) b).getLsbD 3 = (b.getLsbD 3 || decide (.fd ∈ ns)) ∧
        (ns.foldl (fun b n => b ||| n.mask) b).getLsbD 4 = (b.getLsbD 4 || decide (.brs ∈ ns)) := by
    induction ns with
    | nil => intro b hb; simp [hb]
    | cons n ns ih =>
      intro b hb
      have hn : (b ||| n.mask).toNat < 32 := by
        rw [BitVec.toNat_or]
        exact Nat.or_lt_two_pow (n := 5) hb (by cases n <;> decide)
      obtain ⟨l, e, r, er, fd, brs⟩ := ih _ hn
      simp only [List.foldl_cons, l, e, r, er, fd, brs, true_and]
      cases n <;> simp [FlagName.mask]
  simpa [flagSet] using gen names 0 (by decide)

end Sys2Proof
end

