-- ==== Sys2Proof/Laws/Encoder.lean ====
section
/-! SUPPORT. What the encoder computes (spec/41_encoder.md R251 to R254). -/

namespace Sys2Proof.Machine

/-- Valid for encode, as a proposition (R62). -/
theorem validForEncode_iff (f : CanFrame) :
    validForEncode f = true ↔
      f.arbitrationId.toNat < 2 ^ 29 ∧ f.data.length = f.dlc.toNat ∧ f.dlc.toNat ≤ if f.isFd then 64 else 8 := by
  unfold validForEncode
  rw [Bool.and_eq_true, Bool.and_eq_true, decide_eq_true_iff, decide_eq_true_iff, beq_iff_eq, and_assoc]
  rfl

/-- The payload of a valid frame has the length its class fixes (R253). -/
theorem encodePayload_length (f : CanFrame) (h : validForEncode f = true) :
    (encodePayload f).length = if f.isFd then f.dlc.toNat else classicWirePayload := by
  obtain ⟨-, hl, hb⟩ := (validForEncode_iff f).1 h
  unfold encodePayload
  cases hfd : f.isFd
  · simp only [hfd, Bool.false_eq_true, if_false] at hb
    simp [hl, classicWirePayload]
    omega
  · simpa using hl

/-- The datagram's length (R254). -/
theorem encodeDatagram_length (c : Config) (f : CanFrame) (h : validForEncode f = true) :
    (encodeDatagram c f).length = c.hdrBytes + if f.isFd then f.dlc.toNat else classicWirePayload := by
  rw [encodeDatagram, List.length_append, packHeader_length, encodePayload_length f h]

/-- `frame_flags` as a sum of bit values. -/
theorem encodeFlags_toNat (c : Config) (f : CanFrame) :
    (encodeFlags c f).toNat =
      (!f.isFd && f.remoteFrame).toNat + 16 * (flag4 c f).toNat + 32 * f.bitrateSwitch.toNat + 64 * f.errorFrame.toNat := by
  unfold encodeFlags
  generalize (!f.isFd && f.remoteFrame) = a
  generalize flag4 c f = b
  cases a <;> cases b <;> cases f.bitrateSwitch <;> cases f.errorFrame <;> rfl

/-- `frame_id_raw` of a frame whose id fits 29 bits, as a sum: the id lies below bits 30 and 31. -/
theorem encodeIdRaw_toNat (f : CanFrame) (h : f.arbitrationId.toNat < 2 ^ 29) :
    (encodeIdRaw f).toNat =
      f.arbitrationId.toNat + 2 ^ 30 * (!f.isFd && f.remoteFrame).toNat + 2 ^ 31 * f.extendedId.toNat := by
  unfold encodeIdRaw
  generalize (!f.isFd && f.remoteFrame) = a
  have h30 : f.arbitrationId.toNat < 2 ^ 30 := lt_trans h (by decide)
  have key (k : Nat) (m : U32) (hm : m.toNat = 2 ^ 30 * k) :
      (f.arbitrationId ||| m).toNat = f.arbitrationId.toNat + 2 ^ 30 * k := by
    rw [BitVec.toNat_or, hm, Nat.or_comm, Nat.add_comm, Nat.two_pow_add_eq_or_of_lt h30 k]
  have e (x y : Bool) : (maskIf x 0x40000000#32 ||| maskIf y 0x80000000#32).toNat = 2 ^ 30 * (x.toNat + 2 * y.toNat) := by
    cases x <;> cases y <;> decide
  rw [BitVec.or_assoc, key _ _ (e a f.extendedId), Nat.mul_add, Nat.add_assoc, ← Nat.mul_assoc, ← Nat.pow_succ]

end Sys2Proof.Machine
end

