-- ==== Sys2Proof/Laws/Header.lean ====
section
/-! SUPPORT. The unpacked header in terms of the image's bytes (spec/40_header.md R202, spec/30_encoding.md R150), and the
masked id (R209). -/

namespace Sys2Proof

theorem slice_cons (B : Bytes) (i j : Nat) (hij : i < j) (hi : i < B.length) :
    slice B i j = byteAt B i :: slice B (i + 1) j := by
  have h : i < (B.take j).length := by rw [List.length_take]; omega
  unfold slice byteAt
  rw [List.drop_eq_getElem_cons h, List.getElem_take, List.getD_eq_getElem?_getD, List.getElem?_eq_getElem hi]
  rfl

theorem slice_self (B : Bytes) (i : Nat) : slice B i i = [] := by
  simp [slice]

variable (c : Config) {B : Bytes} (h : B.length = c.hdrBytes)

theorem unpack_frameKind_toNat : (unpackHeader c B).frameKind.toNat = fromBe (slice B 2 4) := by
  have : memRead B 2 2 < 2 ^ 16 := memRead_lt B 2 2
  simp only [unpackHeader, BitVec.toNat_ofNat, Nat.mod_eq_of_lt this]
  rfl

theorem unpack_frameIdRaw_toNat : (unpackHeader c B).frameIdRaw.toNat = fromBe (slice B c.offId (c.offId + 4)) := by
  have : memRead B c.offId 4 < 2 ^ 32 := memRead_lt B c.offId 4
  simp only [unpackHeader, BitVec.toNat_ofNat, Nat.mod_eq_of_lt this]
  rfl

include h

theorem unpack_frameSize : (unpackHeader c B).frameSize = byteAt B c.offSize := by
  have hs : slice B c.offSize (c.offSize + 1) = [byteAt B c.offSize] := by
    rw [slice_cons _ _ _ (by omega) (by rw [h]; simp only [Config.offSize, Config.hdrBytes]; omega), slice_self]
  simp [unpackHeader, memRead, hs, fromBe]

/-- The low byte of `frame_flags` is the byte after `OFF_FLAGS`. -/
theorem unpack_frameFlags_bit {i : Nat} (hi : i < 8) :
    (unpackHeader c B).frameFlags.getLsbD i = (byteAt B (c.offFlags + 1)).getLsbD i := by
  have hb : c.offFlags + 2 ≤ B.length := by rw [h]; simp only [Config.offFlags, Config.hdrBytes]; omega
  have hs : slice B c.offFlags (c.offFlags + 2) = [byteAt B c.offFlags, byteAt B (c.offFlags + 1)] := by
    rw [slice_cons _ _ _ (by omega) (by omega), slice_cons _ _ _ (by omega) (by omega), slice_self]
  simp only [unpackHeader, memRead, hs, fromBe, List.length_cons, List.length_nil, BitVec.getLsbD_ofNat]
  generalize byteAt B c.offFlags = x
  generalize byteAt B (c.offFlags + 1) = y
  have e : x.toNat * 256 ^ (0 + 1) + (y.toNat * 256 ^ 0 + 0) = 2 ^ 8 * x.toNat + y.toNat := by ring
  rw [e, Nat.testBit_two_pow_mul_add _ y.isLt]
  simp [hi, show i < 16 by omega, BitVec.getLsbD]

/-- `frame_id_raw` bit 31 is the top bit of the byte at `OFF_ID`. -/
theorem unpack_extendedId : (unpackHeader c B).extendedId = (byteAt B c.offId).getLsbD 7 := by
  have hb : c.offId + 4 ≤ B.length := by rw [h]; simp only [Config.offId, Config.hdrBytes]; omega
  have hs : slice B c.offId (c.offId + 4) = byteAt B c.offId :: slice B (c.offId + 1) (c.offId + 4) :=
    slice_cons _ _ _ (by omega) (by omega)
  have hl : (slice B (c.offId + 1) (c.offId + 4)).length = 3 := by rw [slice_length]; omega
  have hlt : fromBe (slice B (c.offId + 1) (c.offId + 4)) < 2 ^ 24 := by
    have := fromBe_lt (slice B (c.offId + 1) (c.offId + 4)); rw [hl] at this; simpa using this
  simp only [WireHeader.extendedId, unpackHeader, memRead, hs, fromBe, hl, BitVec.getLsbD_ofNat]
  generalize fromBe (slice B (c.offId + 1) (c.offId + 4)) = r at hlt
  have e (x : Nat) : x * 256 ^ 3 + r = 2 ^ 24 * x + r := by ring
  rw [e, Nat.testBit_two_pow_mul_add _ hlt]
  simp [BitVec.getLsbD]

omit h

/-- The masked id is the id modulo `2^ID_BITS` (R209). -/
theorem id_toNat (w : WireHeader) (hl : c.Legal) : (w.id c).toNat = w.frameIdRaw.toNat % 2 ^ c.idBits := by
  unfold WireHeader.id Config.idMask
  rw [BitVec.toNat_and, BitVec.toNat_ofNat]
  rw [Nat.mod_eq_of_lt (a := 2 ^ c.idBits - 1) (by rcases hl with ⟨-, h | h, -⟩ <;> rw [h] <;> decide)]
  exact Nat.and_two_pow_sub_one_eq_mod _ _

end Sys2Proof
end

