-- ==== Sys2Proof/Laws/Operands.lean ====
section
/-! SUPPORT. The number spellings of a text result (spec/40_header.md R211): one lemma over `digits`. -/

namespace Sys2Proof.Machine

open Sys2Proof.Stated

/-- Each digit below 16 is spelled by its character. -/
theorem digitChar_spec : ∀ d < 16,
    (('0' ≤ digitChar d ∧ digitChar d ≤ '9') ∨ ('a' ≤ digitChar d ∧ digitChar d ≤ 'f')) ∧
      digitValue (digitChar d) = d ∧ (d ≠ 0 → digitChar d ≠ '0') := by
  decide

/-- The digits of a positive value stand before `acc`, have its value, and begin with a digit other than zero. -/
theorem digits_pos {b : Nat} (hb : 1 < b) (hb16 : b ≤ 16) (fuel v : Nat) (hv : v < b ^ (fuel + 1)) (hp : 0 < v)
    (acc : List Char) :
    ∃ ds, digits b fuel v acc = ds ++ acc ∧
      (∀ ch ∈ ds, (('0' ≤ ch ∧ ch ≤ '9') ∨ ('a' ≤ ch ∧ ch ≤ 'f')) ∧ digitValue ch < b) ∧
      ds.foldl (fun n ch => n * b + digitValue ch) 0 = v ∧ ds ≠ [] ∧ ds.head? ≠ some '0' := by
  have single (v : Nat) (hv : v < b) (hp : 0 < v) :
      (∀ ch ∈ [digitChar v], (('0' ≤ ch ∧ ch ≤ '9') ∨ ('a' ≤ ch ∧ ch ≤ 'f')) ∧ digitValue ch < b) ∧
        [digitChar v].foldl (fun n ch => n * b + digitValue ch) 0 = v ∧ [digitChar v] ≠ [] ∧
        [digitChar v].head? ≠ some '0' := by
    obtain ⟨h1, h2, h3⟩ := digitChar_spec v (by omega)
    refine ⟨?_, by simp [h2], by simp, by simp [h3 (by omega)]⟩
    intro ch hch
    obtain rfl := List.mem_singleton.1 hch
    exact ⟨h1, by omega⟩
  induction fuel generalizing v acc with
  | zero =>
    have hv' : v < b := by simpa using hv
    exact ⟨[digitChar v], by simp [digits, Nat.mod_eq_of_lt hv'], single v hv' hp⟩
  | succ n ih =>
    by_cases h : v < b
    · exact ⟨[digitChar v], by simp [digits, h], single v h hp⟩
    · have hq : v / b < b ^ (n + 1) := by
        rw [Nat.div_lt_iff_lt_mul (by omega)]
        rwa [pow_succ] at hv
      obtain ⟨ds, h1, h2, h3, h4, h5⟩ := ih (v / b) hq (Nat.div_pos (by omega) (by omega)) (digitChar (v % b) :: acc)
      have hm : v % b < b := Nat.mod_lt _ (by omega)
      obtain ⟨k1, k2, -⟩ := digitChar_spec (v % b) (by omega)
      refine ⟨ds ++ [digitChar (v % b)], by simp [digits, h, h1], ?_, ?_, by simp, ?_⟩
      · intro ch hch
        rcases List.mem_append.1 hch with hc | hc
        · exact h2 ch hc
        · obtain rfl := List.mem_singleton.1 hc
          exact ⟨k1, by omega⟩
      · rw [List.foldl_append, h3]
        simp only [List.foldl_cons, List.foldl_nil, k2]
        exact Nat.div_add_mod' v b
      · rw [List.head?_append_of_ne_nil _ h4]
        exact h5

/-- `digits` spells its value (R211). -/
theorem digits_spells {b : Nat} (hb : 1 < b) (hb16 : b ≤ 16) (fuel v : Nat) (hv : v < b ^ (fuel + 1)) :
    Spells b (digits b fuel v []) v := by
  rcases Nat.eq_zero_or_pos v with rfl | hp
  · have e : digits b fuel 0 [] = ['0'] := by
      have : 0 < b := by omega
      cases fuel <;> simp [digits, digitChar, this]
    have h0 : digitValue '0' = 0 := by decide
    rw [e]
    refine ⟨?_, by simp [h0], by simp, by simp⟩
    intro ch hch
    obtain rfl := List.mem_singleton.1 hch
    exact ⟨.inl (by decide), by omega⟩
  · obtain ⟨ds, h1, h2, h3, h4, h5⟩ := digits_pos hb hb16 fuel v hv hp []
    rw [h1, List.append_nil]
    exact ⟨h2, h3, h4, fun h => absurd h h5⟩

end Sys2Proof.Machine
end

