-- ==== Sys2Proof/Laws/PerInstr.lean ====
section
/-! SUPPORT. Statements for all instructions, one lemma per constructor. `EncodedLength`: an encoding has the length its
format fixes (spec/30_encoding.md R150, R181 to R183, R186); an illegal command has the length it has. -/

namespace Sys2Proof.Laws

/-- The length of an instruction's encoding. -/
def formatLength (c : Config) : Instr → Nat
  | .encode f => 7 + f.dlc.toNat
  | .send f => 7 + f.dlc.toNat
  | .receive _ => 2
  | .shutdown => 1
  | .isRemoteRequest _ => 21 + c.tagBytes
  | .isFdFlagged _ => 21 + c.tagBytes
  | .isBitrateSwitch _ => 21 + c.tagBytes
  | .isErrorState _ => 21 + c.tagBytes
  | .isExtendedId _ => 21 + c.tagBytes
  | .getId _ => 21 + c.tagBytes
  | .summary _ => 21 + c.tagBytes
  | .illegal cmd => cmd.length
  | .kindCanFrame _ => 20 + c.tagBytes
  | .kindCanFrameCrc _ => 20 + c.tagBytes
  | .kindCanFdFrame _ => 20 + c.tagBytes
  | .kindCanFdFrameCrc _ => 20 + c.tagBytes
  | .kindUnknown _ => 20 + c.tagBytes

/-- The encoding of a well-formed instruction has the length its format fixes. -/
def EncodedLength.Statement (i : Instr) : Prop :=
  ∀ c : Config, i.wellFormed c = true → (Sys2Proof.encode c i).length = formatLength c i

/-- A descriptor that spells a frame has `7 + dlc` bytes with its opcode (R181). -/
theorem frame_length (op : Byte) (f : CanFrame) (h : f.describable = true) :
    (op :: encodeFrame f).length = 7 + f.dlc.toNat := by
  simp only [CanFrame.describable, Bool.and_eq_true, beq_iff_eq] at h
  simp [encodeFrame, h.1]
  omega

/-- An accessor command has `1 + HDR` bytes (R183). -/
theorem image_length (c : Config) (op : Byte) (hdr : Bytes) (h : imageOk c hdr = true) :
    (op :: hdr).length = 21 + c.tagBytes := by
  simp only [imageOk, beq_iff_eq, Config.hdrBytes] at h
  simp only [List.length_cons, h]
  omega

theorem EncodedLength.encode (f : CanFrame) : EncodedLength.Statement (.encode f) :=
  fun _ h => frame_length _ f h

theorem EncodedLength.send (f : CanFrame) : EncodedLength.Statement (.send f) :=
  fun _ h => frame_length _ f h

theorem EncodedLength.receive (tmo : Timeout) : EncodedLength.Statement (.receive tmo) :=
  fun _ _ => rfl

theorem EncodedLength.shutdown : EncodedLength.Statement .shutdown :=
  fun _ _ => rfl

theorem EncodedLength.isRemoteRequest (hdr : Bytes) : EncodedLength.Statement (.isRemoteRequest hdr) :=
  fun c h => image_length c _ hdr h

theorem EncodedLength.isFdFlagged (hdr : Bytes) : EncodedLength.Statement (.isFdFlagged hdr) :=
  fun c h => image_length c _ hdr h

theorem EncodedLength.isBitrateSwitch (hdr : Bytes) : EncodedLength.Statement (.isBitrateSwitch hdr) :=
  fun c h => image_length c _ hdr h

theorem EncodedLength.isErrorState (hdr : Bytes) : EncodedLength.Statement (.isErrorState hdr) :=
  fun c h => image_length c _ hdr h

theorem EncodedLength.isExtendedId (hdr : Bytes) : EncodedLength.Statement (.isExtendedId hdr) :=
  fun c h => image_length c _ hdr h

theorem EncodedLength.getId (hdr : Bytes) : EncodedLength.Statement (.getId hdr) :=
  fun c h => image_length c _ hdr h

theorem EncodedLength.summary (hdr : Bytes) : EncodedLength.Statement (.summary hdr) :=
  fun c h => image_length c _ hdr h

theorem EncodedLength.illegal (cmd : Bytes) : EncodedLength.Statement (.illegal cmd) :=
  fun _ _ => rfl

theorem EncodedLength.kindCanFrame (h : WireHeader) : EncodedLength.Statement (.kindCanFrame h) :=
  fun c _ => packHeader_length c h

theorem EncodedLength.kindCanFrameCrc (h : WireHeader) : EncodedLength.Statement (.kindCanFrameCrc h) :=
  fun c _ => packHeader_length c h

theorem EncodedLength.kindCanFdFrame (h : WireHeader) : EncodedLength.Statement (.kindCanFdFrame h) :=
  fun c _ => packHeader_length c h

theorem EncodedLength.kindCanFdFrameCrc (h : WireHeader) : EncodedLength.Statement (.kindCanFdFrameCrc h) :=
  fun c _ => packHeader_length c h

theorem EncodedLength.kindUnknown (h : WireHeader) : EncodedLength.Statement (.kindUnknown h) :=
  fun c _ => packHeader_length c h

end Sys2Proof.Laws
end

