-- ==== Sys2Proof/Laws/Step.lean ====
section
/-! SUPPORT. What one step can do: one lemma over `step`, in terms of `exec`. -/

namespace Sys2Proof.Machine

/-- How a step can end. A wire instruction runs only on the header image of the decode in progress. -/
inductive StepEnds (s : State) : State → Prop where
  | idle (ha : s.activity = .idle) (hc : s.commands = []) : StepEnds s s
  | command (cmd : Bytes) (rest : List Bytes) (i : Instr) (t : State) (ha : s.activity = .idle)
      (hc : s.commands = cmd :: rest) (hd : decode s.cfg .command cmd = .ok i)
      (hx : exec i { s with commands := rest } = .next t) : StepEnds s t
  | badOperand (cmd : Bytes) (rest : List Bytes) (ha : s.activity = .idle) (hc : s.commands = cmd :: rest) :
      StepEnds s (refuse .badOperand { s with commands := rest })
  | sending (f : CanFrame) (t : State) (ha : s.activity = .sending f) (hx : exec (.send f) s = .next t) : StepEnds s t
  | receiving (tmo : Timeout) (t : State) (ha : s.activity = .receiving tmo)
      (hx : exec (.receive tmo) s = .next t) : StepEnds s t
  | decoding (tmo : Timeout) (hdr : Bytes) (got : Option Bytes) (t : State) (ha : s.activity = .decoding tmo hdr got)
      (hl : hdr.length = s.cfg.hdrBytes) (hx : exec (kindInstr (unpackHeader s.cfg hdr)) s = .next t) : StepEnds s t
  | parsing (d : Bytes) (t : State) (ha : s.activity = .parsing d)
      (hx : exec (kindInstr (unpackHeader s.cfg (slice d 0 s.cfg.hdrBytes))) s = .next t) : StepEnds s t

/-- A header image that decodes has `HDR` bytes and selects its kind's instruction. -/
theorem decode_wire {c : Config} {image : Bytes} {i : Instr} (h : decode c .wire image = .ok i) :
    image.length = c.hdrBytes ∧ i = kindInstr (unpackHeader c image) := by
  simp only [decode, decodeHeader] at h
  split at h
  next hl => cases h; exact ⟨hl, rfl⟩
  next => cases h

/-- A decode in progress goes on only from a header image that decodes. -/
theorem runFetched_wire {s t : State} {image : Bytes}
    (h : (match fetchedOf s (decode s.cfg .wire image) with
      | .nothing => .next s
      | .instr i u => exec i u
      | .reject r u => rejectBytes r u) = Host.Outcome.next t) :
    image.length = s.cfg.hdrBytes ∧ exec (kindInstr (unpackHeader s.cfg image)) s = .next t := by
  cases hd : decode s.cfg .wire image with
  | ok i =>
    rw [hd] at h
    obtain ⟨hl, rfl⟩ := decode_wire hd
    exact ⟨hl, h⟩
  | error r =>
    rw [hd] at h
    simp only [decode, decodeHeader] at hd
    split at hd
    · cases hd
    · cases hd; cases h

/-- Everything a step can do: it runs on a block with neither mark, and ends as `StepEnds` says. -/
theorem step_ends {s t : State} (h : step s = .next t) : s.usable ∧ StepEnds s t := by
  unfold step at h
  split at h
  next => cases h
  next hf =>
  split at h
  next => cases h
  next hr =>
  refine ⟨⟨hf, hr⟩, ?_⟩
  unfold fetch at h
  cases ha : s.activity with
  | idle =>
    rw [ha] at h
    cases hc : s.commands with
    | nil => rw [hc] at h; cases h; exact .idle ha hc
    | cons cmd rest =>
      rw [hc] at h
      simp only at h
      cases hd : decode s.cfg .command cmd with
      | ok i => rw [hd] at h; exact .command cmd rest i t ha hc hd (by rw [ha]; exact h)
      | error r =>
        rw [hd] at h
        cases r with
        | badOperand => cases h; exact .badOperand cmd rest ha hc
        | badImage => cases h
  | sending f => rw [ha] at h; exact .sending f t ha h
  | receiving tmo => rw [ha] at h; exact .receiving tmo t ha h
  | decoding tmo hdr got =>
    rw [ha] at h
    obtain ⟨hl, hx⟩ := runFetched_wire h
    exact .decoding tmo hdr got t ha hl hx
  | parsing d => rw [ha] at h; exact .parsing d t ha (runFetched_wire h).2

end Sys2Proof.Machine
end

