-- ==== Sys2Proof/Tests/Slice0.lean ====
section
/-! SUPPORT. The model's own tests: ill-formed terms that the well-formedness check refuses, a written-out word for every
constructor, at most two single steps per instruction (expected results from spec/95_test_vectors.md, by their ids
there), and for every obligation with hypotheses a concrete witness that meets them. -/

namespace Sys2Proof.Tests

open Sys2Proof.Machine Sys2Proof.Stated

/-! ## Small states and byte strings -/

/-- `HA`, the header of `A` (spec/95_test_vectors.md). -/
def hdrA : Bytes :=
  [0x00, 0x20, 0x00, 0x80, 0, 0, 0, 0, 0, 0, 0, 0, 0, 0, 0, 0, 0x00, 0x05, 0x00, 0x00, 0x00, 0x00, 0x00, 0x45]

/-- The payload of `A`. -/
def payA : Bytes := [0x00, 0x01, 0x11, 0x01, 0x22, 0x00, 0x00, 0x00]

/-- `HC`, the header of `C`. -/
def hdrC : Bytes :=
  [0x00, 0x20, 0x00, 0x80, 0, 0, 0, 0, 0, 0, 0, 0, 0, 0, 0, 0, 0x00, 0x00, 0x00, 0x11, 0xDF, 0xFF, 0xFF, 0xFF]

/-- The header of `K81`. -/
def hdrK81 : Bytes :=
  [0x00, 0x24, 0x00, 0x81, 0, 0, 0, 0, 0, 0, 0, 0, 0, 0, 0, 0, 0x00, 0x02, 0x00, 0x00, 0x00, 0x00, 0x01, 0x00]

/-- The header of `K91`. -/
def hdrK91 : Bytes :=
  [0x00, 0x1E, 0x00, 0x91, 0, 0, 0, 0, 0, 0, 0, 0, 0, 0, 0, 0, 0x00, 0x02, 0x00, 0x40, 0x00, 0x00, 0x02, 0x00]

/-- The header of vector X7, whose kind is unknown. -/
def hdrX7 : Bytes :=
  [0x00, 0x20, 0x00, 0x82, 0, 0, 0, 0, 0, 0, 0, 0, 0, 0, 0, 0, 0x00, 0x05, 0x00, 0x00, 0x00, 0x00, 0x00, 0x45]

/-- The header of `D`, an FD frame of 20 bytes. -/
def hdrD : Bytes :=
  [0x00, 0x2C, 0x00, 0x90, 0, 0, 0, 0, 0, 0, 0, 0, 0, 0, 0, 0, 0x00, 0x14, 0x00, 0x20, 0x00, 0x00, 0x00, 0x69]

def cfg29 : Config := { Config.std with idBits := 29 }

def cfg8 : Config := { Config.std with tagBytes := 8 }

def cfgAtomic : Config := { Config.std with readerMode := .datagramAtomic }

/-- A fresh block with one command at its port. -/
def fresh (c : Config) (cmd : Bytes) : State := { State.init c with commands := [cmd] }

/-- A fresh block whose environment will give these answers to receives. -/
def hearing (c : Config) (cmd : Bytes) (answers : List RxAnswer) : State :=
  { State.init c with commands := [cmd], rxAnswers := answers }

/-- The state after a step, where there is one. -/
def after (s : State) : Option State :=
  match step s with
  | .next t => some t
  | .fault _ => none
  | .refused _ => none

/-- A frame without its timestamp, which is free: id, dlc, data, and the flags ext, rtr, err, fd, brs. -/
def view (g : CanFrame) : Nat × Nat × Bytes × List Bool :=
  (g.arbitrationId.toNat, g.dlc.toNat, g.data,
    [g.extendedId, g.remoteFrame, g.errorFrame, g.isFd, g.bitrateSwitch])

/-- The frame a step answered. -/
def answered (s : State) : Option (Nat × Nat × Bytes × List Bool) :=
  match (after s).bind fun t => t.results.getLast? with
  | some (.ok (.frame g)) => some (view g)
  | _ => none

/-! ## Well-formedness -/

def frame2 : CanFrame where
  arbitrationId := 0x45
  dlc := 2
  data := [0xAA, 0xBB]
  extendedId := false
  remoteFrame := false
  errorFrame := false
  isFd := false
  bitrateSwitch := false
  timestamp := none

def plainHeader : WireHeader where
  packetSize := 32
  frameKind := 0x80
  reservedTag := 0
  timestampLow := 0
  timestampHigh := 0
  channel := 0
  frameSize := 5
  frameFlags := 0
  frameIdRaw := 0x45

theorem wf_encode : (Instr.encode frame2).wellFormed Config.std = true := by decide

theorem illformed_data_length : (Instr.encode { frame2 with dlc := 3 }).wellFormed Config.std = false := by decide

theorem illformed_timestamp : (Instr.send { frame2 with timestamp := some ⟨0⟩ }).wellFormed Config.std = false := by decide

theorem illformed_image_short : (Instr.getId (hdrA.take 23)).wellFormed Config.std = false := by decide

theorem illformed_image_other_tag : (Instr.summary hdrA).wellFormed cfg8 = false := by decide

theorem illformed_illegal : (Instr.illegal [0x26, 0x00]).wellFormed Config.std = false := by decide

theorem illformed_tag : (Instr.kindCanFrame { plainHeader with reservedTag := 2 ^ 32 }).wellFormed Config.std = false := by
  decide

theorem illformed_kinds :
    (Instr.kindCanFrame { plainHeader with frameKind := 0x81 }).wellFormed Config.std = false ∧
      (Instr.kindCanFrameCrc plainHeader).wellFormed Config.std = false ∧
      (Instr.kindCanFdFrame plainHeader).wellFormed Config.std = false ∧
      (Instr.kindCanFdFrameCrc { plainHeader with frameKind := 0x90 }).wellFormed Config.std = false ∧
      (Instr.kindUnknown { plainHeader with frameKind := 0x91 }).wellFormed Config.std = false := by decide

/-! ## Decoding: a word written out from the spec's encoding for every constructor -/

/-- R181: id 0x1ABCDEF0, dlc 1, fl = fd and brs. -/
theorem test_decode_encode :
    decode Config.std .command [0x01, 0x1A, 0xBC, 0xDE, 0xF0, 0x01, 0x18, 0x77] =
      .ok (.encode { frame2 with arbitrationId := 0x1ABCDEF0, dlc := 1, data := [0x77], isFd := true, bitrateSwitch := true }) := by
  decide

/-- R181: fl = ext, rtr, err. -/
theorem test_decode_send :
    decode Config.std .command [0x02, 0x00, 0x00, 0x00, 0x45, 0x00, 0x07] =
      .ok (.send { frame2 with dlc := 0, data := [], extendedId := true, remoteFrame := true, errorFrame := true }) := by
  decide

theorem test_decode_receive : decode Config.std .command [0x03, 0x00] = .ok (.receive .none) := by decide

theorem test_decode_shutdown : decode Config.std .command [0x04] = .ok .shutdown := by decide

theorem test_decode_isRemoteRequest : decode Config.std .command (0x20 :: hdrA) = .ok (.isRemoteRequest hdrA) := by decide

theorem test_decode_isFdFlagged : decode Config.std .command (0x21 :: hdrA) = .ok (.isFdFlagged hdrA) := by decide

theorem test_decode_isBitrateSwitch : decode Config.std .command (0x22 :: hdrA) = .ok (.isBitrateSwitch hdrA) := by decide

theorem test_decode_isErrorState : decode Config.std .command (0x23 :: hdrA) = .ok (.isErrorState hdrA) := by decide

theorem test_decode_isExtendedId : decode Config.std .command (0x24 :: hdrA) = .ok (.isExtendedId hdrA) := by decide

theorem test_decode_getId : decode Config.std .command (0x25 :: hdrA) = .ok (.getId hdrA) := by decide

theorem test_decode_summary : decode Config.std .command (0x26 :: hdrA) = .ok (.summary hdrA) := by decide

/-- The edges of the opcode map (R184, R185). -/
theorem test_decode_illegal :
    decode Config.std .command [] = .ok (.illegal []) ∧ decode Config.std .command [0x00] = .ok (.illegal [0x00]) ∧
      decode Config.std .command [0x1F] = .ok (.illegal [0x1F]) ∧
      decode Config.std .command [0x27, 0x01] = .ok (.illegal [0x27, 0x01]) ∧
      decode Config.std .command [0xFF] = .ok (.illegal [0xFF]) := by decide

/-- Malformed operands (R186): vectors B12, B13, H19. -/
theorem test_decode_malformed :
    decode Config.std .command [0x03, 0x00, 0x00] = .error .badOperand ∧
      decode Config.std .command [0x04, 0x00] = .error .badOperand ∧
      decode Config.std .command (0x25 :: hdrA.take 23) = .error .badOperand := by decide

theorem test_decode_kindCanFrame : decode Config.std .wire hdrA = .ok (.kindCanFrame plainHeader) := by decide

theorem test_decode_kindCanFrameCrc :
    decode Config.std .wire hdrK81 =
      .ok (.kindCanFrameCrc { plainHeader with packetSize := 36, frameKind := 0x81, frameSize := 2, frameIdRaw := 0x100 }) := by
  decide

theorem test_decode_kindCanFdFrame :
    decode Config.std .wire hdrD =
      .ok (.kindCanFdFrame { plainHeader with packetSize := 44, frameKind := 0x90, frameSize := 20, frameFlags := 0x20,
                                              frameIdRaw := 0x69 }) := by
  decide

theorem test_decode_kindCanFdFrameCrc :
    decode Config.std .wire hdrK91 =
      .ok (.kindCanFdFrameCrc { plainHeader with packetSize := 30, frameKind := 0x91, frameSize := 2, frameFlags := 0x40,
                                                 frameIdRaw := 0x200 }) := by
  decide

theorem test_decode_kindUnknown :
    decode Config.std .wire hdrX7 = .ok (.kindUnknown { plainHeader with frameKind := 0x82 }) := by decide

/-- Every field at its own place, at `TAG_BYTES = 8` (R150). -/
theorem test_unpack_layout_8 :
    decode cfg8 .wire
        [0xFF, 0xFE, 0x00, 0x80, 1, 2, 3, 4, 5, 6, 7, 8, 9, 10, 11, 12, 13, 14, 15, 16, 17, 18, 0x19, 0x1A, 0x1B, 0x1C, 0x1D, 0x1E] =
      .ok (.kindCanFrame {
        packetSize := 0xFFFE, frameKind := 0x0080, reservedTag := 0x0102030405060708, timestampLow := 0x090A0B0C
        timestampHigh := 0x0D0E0F10, channel := 0x11, frameSize := 0x12, frameFlags := 0x191A
        frameIdRaw := 0x1B1C1D1E }) := by
  decide

/-! ## Single steps -/

/-- E8: `ENCODE {0x1ABCDEF0, 0, [], ext, fd, brs}`, whose flags are 0x0030. -/
theorem test_encode_fd :
    (after (fresh Config.std [0x01, 0x1A, 0xBC, 0xDE, 0xF0, 0x00, 0x19])).map (·.results) =
      some [.ok (.bytes [0x00, 0x18, 0x00, 0x90, 0, 0, 0, 0, 0, 0, 0, 0, 0, 0, 0, 0, 0x00, 0x00, 0x00, 0x30, 0x9A, 0xBC,
        0xDE, 0xF0])] := by
  decide

/-- E9: a classic remote frame keeps its data and sets flag bit 0 and raw bit 30. -/
theorem test_encode_remote :
    (after (fresh Config.std [0x01, 0x00, 0x00, 0x00, 0x45, 0x05, 0x02, 0x00, 0x01, 0x11, 0x01, 0x22])).map (·.results) =
      some [.ok (.bytes [0x00, 0x20, 0x00, 0x80, 0, 0, 0, 0, 0, 0, 0, 0, 0, 0, 0, 0, 0x00, 0x05, 0x00, 0x01, 0x40, 0x00,
        0x00, 0x45, 0x00, 0x01, 0x11, 0x01, 0x22, 0x00, 0x00, 0x00])] := by
  decide

/-- B1: `SEND` of Scenario A logs `A`. -/
theorem test_send_logs :
    (after { fresh Config.std [0x02, 0x00, 0x00, 0x00, 0x45, 0x05, 0x00, 0x00, 0x01, 0x11, 0x01, 0x22] with
        txAnswers := [.sent] }).map (fun t => (t.txlog, t.results)) =
      some ([hdrA ++ payA], [.ok .unit]) := by
  decide

/-- B6: after SHUTDOWN, `Fault(CLOSED)` comes before the precondition. -/
theorem test_send_closed_first :
    (after { fresh Config.std [0x02, 0x00, 0x00, 0x00, 0x45, 0x09, 0x00, 0, 0, 0, 0, 0, 0, 0, 0, 0] with
        life := .closed }).map (fun t => (t.fault, t.refused)) =
      some (some .closed, none) := by
  decide

/-- X20: one frame from two datagrams. -/
theorem test_receive_split :
    answered (hearing Config.std [0x03, 0x00] [.dgram (hdrA.take 10), .dgram (hdrA.drop 10 ++ payA)]) =
      some (0x45, 5, [0x00, 0x01, 0x11, 0x01, 0x22], [false, false, false, false, false]) := by
  decide

/-- X17: a timeout after the header keeps the partial payload. -/
theorem test_receive_partial :
    (after (hearing Config.std [0x03, 0x01] [.dgram (hdrA ++ [0x00, 0x01, 0x11, 0x01]), .timedOut])).map
        (fun t => (t.results, t.buf, t.rxAnswers)) =
      some ([.noFrame .timeout], [0x00, 0x01, 0x11, 0x01], []) := by
  decide

/-- R402, with its example. -/
theorem test_shutdown :
    (after { fresh Config.std [0x04] with buf := [0x00, 0x05] }).map (fun t => (t.life, t.buf, t.results)) =
      some (.closed, [], [.ok .unit]) := by
  decide

/-- H2, H3: only flag bit 0 is read, not raw bit 30. -/
theorem test_isRemoteRequest :
    (after (fresh Config.std (0x20 :: hdrC))).map (·.results) = some [.ok (.bool true)] ∧
      (after (fresh Config.std (0x20 :: (hdrA.take 20 ++ [0x40, 0x00, 0x00, 0x45])))).map (·.results) =
        some [.ok (.bool false)] := by
  decide

/-- H4. -/
theorem test_isFdFlagged : (after (fresh Config.std (0x21 :: hdrC))).map (·.results) = some [.ok (.bool true)] := by decide

/-- H6, H7. -/
theorem test_isBitrateSwitch :
    (after (fresh Config.std (0x22 :: hdrD))).map (·.results) = some [.ok (.bool true)] ∧
      (after (fresh Config.std (0x22 :: hdrA))).map (·.results) = some [.ok (.bool false)] := by
  decide

/-- H8, H9: bit 7 is reserved. -/
theorem test_isErrorState :
    (after (fresh Config.std (0x23 :: hdrK91))).map (·.results) = some [.ok (.bool true)] ∧
      (after (fresh Config.std (0x23 :: (hdrA.take 19 ++ 0x80 :: hdrA.drop 20)))).map (·.results) =
        some [.ok (.bool false)] := by
  decide

/-- H10, H11: raw bit 31 is read, not flag bit 4. -/
theorem test_isExtendedId :
    (after (fresh Config.std (0x24 :: hdrC))).map (·.results) = some [.ok (.bool true)] ∧
      (after (fresh Config.std (0x24 :: (hdrA.take 19 ++ 0x10 :: hdrA.drop 20)))).map (·.results) =
        some [.ok (.bool false)] := by
  decide

/-- H13 at both widths of the id. -/
theorem test_getId :
    (after (fresh Config.std (0x25 :: hdrC))).map (·.results) = some [.ok (.word 0x0FFFFFFF)] ∧
      (after (fresh cfg29 (0x25 :: hdrC))).map (·.results) = some [.ok (.word 0x1FFFFFFF)] := by
  decide

/-- H15, H17. -/
theorem test_summary :
    (after (fresh Config.std (0x26 :: hdrC))).map (·.results) =
        some [.ok (.text "ID=0xfffffff DLC=0 EXTENDED".toList)] ∧
      (after (fresh Config.std (0x26 :: zeros 24))).map (·.results) = some [.ok (.text "ID=0x0 DLC=0".toList)] := by
  decide

/-- B14: the refusal of an illegal opcode comes before `CLOSED`. -/
theorem test_illegal :
    (after { fresh Config.std [0x05] with life := .closed }).map (fun t => (t.fault, t.refused)) =
      some (none, some .illegalOpcode) := by
  decide

/-- X13: a classic kind ignores flag bits 5 and 6. -/
theorem test_kindCanFrame :
    answered (hearing Config.std [0x03, 0x00] [.dgram (hdrA.take 19 ++ 0x60 :: hdrA.drop 20 ++ payA)]) =
      some (0x45, 5, [0x00, 0x01, 0x11, 0x01, 0x22], [false, false, false, false, false]) := by
  decide

/-- X10: `frame_size = 9` on a classic kind. -/
theorem test_kindCanFrame_size :
    (after (hearing Config.std [0x03, 0x00] [.dgram (hdrA.take 17 ++ 0x09 :: hdrA.drop 18 ++ zeros 8)])).map
        (fun t => (t.fault, t.buf)) =
      some (some .classicSize, zeros 8) := by
  decide

/-- X4: the trailer of kind 0x81 is consumed and discarded. -/
theorem test_kindCanFrameCrc :
    let s := hearing Config.std [0x03, 0x00]
      [.dgram (hdrK81 ++ [0xDE, 0xAD, 0, 0, 0, 0, 0, 0, 0x11, 0x22, 0x33, 0x44])]
    answered s = some (0x100, 2, [0xDE, 0xAD], [false, false, false, false, false]) ∧
      (after s).map (·.buf) = some [] := by
  decide

/-- G5: in DATAGRAM_ATOMIC mode a missing trailer is an underflow. -/
theorem test_kindCanFrameCrc_short :
    (after (hearing cfgAtomic [0x03, 0x00] [.dgram (hdrK81 ++ [0xDE, 0xAD, 0, 0, 0, 0, 0, 0])])).map
        (fun t => (t.results, t.warnlog)) =
      some ([.noFrame .underflow], [.underflow 32 36]) := by
  decide

/-- X14: an FD kind ignores flag bit 0, and its payload is `frame_size` bytes. -/
theorem test_kindCanFdFrame :
    answered (hearing Config.std [0x03, 0x00]
        [.dgram [0x00, 0x19, 0x00, 0x90, 0, 0, 0, 0, 0, 0, 0, 0, 0, 0, 0, 0, 0x00, 0x01, 0x00, 0x01, 0x00, 0x00, 0x00,
          0x45, 0x77]]) =
      some (0x45, 1, [0x77], [false, false, false, true, false]) := by
  decide

/-- G10. -/
theorem test_kindCanFdFrameCrc :
    answered (hearing cfgAtomic [0x03, 0x00] [.dgram (hdrK91 ++ [0xAB, 0xCD, 0x55, 0x66, 0x77, 0x88])]) =
      some (0x200, 2, [0xAB, 0xCD], [false, false, true, true, false]) := by
  decide

/-- X8: the whole 16-bit kind is compared, and only the header is consumed. -/
theorem test_kindUnknown :
    (after (hearing Config.std [0x03, 0x00] [.dgram (hdrA.take 2 ++ [0x01, 0x80] ++ hdrA.drop 4 ++ zeros 8)])).map
        (fun t => (t.results, t.warnlog, t.buf)) =
      some ([.noFrame .unknownKind], [.unknownKind 0x0180], zeros 8) := by
  decide

/-- B11: a bad timeout byte refuses, and B15, B16: a marked block has no step. -/
theorem test_marks :
    (after (fresh Config.std [0x03, 0x02])).map (·.refused) = some (some .badOperand) ∧
      after { fresh Config.std [0x04] with fault := some .socket } = none ∧
      after { fresh Config.std [0x01, 0x00, 0x00, 0x00, 0x45, 0x00, 0x00] with refused := some .illegalOpcode } = none := by
  decide

/-! ## Witnesses: for each obligation with hypotheses, values that meet them -/

/-- A frame at the upper bounds of "valid for encode". -/
def frameMax : CanFrame :=
  { frame2 with arbitrationId := 0x1FFFFFFF, dlc := 64, data := zeros 64, isFd := true, errorFrame := true }

theorem valid_frame2 : Valid frame2 := by unfold Valid; decide

theorem valid_frameMax : Valid frameMax := by unfold Valid; decide

/-- A classic frame one byte too long, and an id one too large. -/
theorem invalid_frames :
    ¬ Valid { frame2 with dlc := 9, data := zeros 9 } ∧ ¬ Valid { frame2 with arbitrationId := 0x20000000 } ∧
      ¬ Valid { frameMax with dlc := 65, data := zeros 65 } := by
  unfold Valid; decide

theorem legal_configs : Config.std.Legal ∧ cfg29.Legal ∧ cfg8.Legal ∧ cfgAtomic.Legal := by decide

theorem reset_usable : State.reset.usable := ⟨rfl, rfl⟩

theorem reset_inv : Inv State.reset :=
  ⟨by decide, by decide, fun _ => rfl, fun _ => rfl, .inl rfl, trivial, nofun, nofun⟩

/-- DecodeOfEncode and EncodeOfDecode, in both spaces. -/
theorem witness_roundTrip :
    (Instr.encode frameMax).wellFormed Config.std = true ∧ (Instr.kindUnknown { plainHeader with frameKind := 0 }).wellFormed cfg8 = true ∧
      decode Config.std .wire hdrK81 = .ok (.kindCanFrameCrc (unpackHeader Config.std hdrK81)) := by
  decide

/-- MalformedCommandsRefused: a malformed and a well-formed command of each format, and each edge of the opcode map. -/
theorem witness_malformed :
    (fresh Config.std [0x04, 0x00]).usable ∧ (fresh Config.std [0x04, 0x00]).activity = .idle ∧
      (fresh Config.std [0x04, 0x00]).commands = [0x04, 0x00] :: [] ∧ ¬ IllegalOpcode 0x04 ∧ ¬ IllegalOpcode 0x20 ∧
      ¬ IllegalOpcode 0x26 ∧ Malformed Config.std [0x04, 0x00] ∧ ¬ Malformed Config.std [0x04] ∧
      Malformed Config.std [0x03, 0x02] ∧ ¬ Malformed Config.std [0x03, 0x01] ∧
      Malformed Config.std [0x01, 0x00, 0x00, 0x00, 0x45, 0x00, 0x20] ∧
      ¬ Malformed Config.std [0x01, 0x00, 0x00, 0x00, 0x45, 0x00, 0x1F] ∧
      Malformed Config.std (0x26 :: hdrA.take 23) ∧ ¬ Malformed Config.std (0x26 :: hdrA) := by
  unfold IllegalOpcode Malformed
  refine ⟨⟨rfl, rfl⟩, rfl, rfl, ?_, ?_, ?_, ?_, ?_, ?_, ?_, ?_, ?_, ?_, ?_⟩ <;> decide

/-- IllegalCommandsRefused: the edges of the illegal ranges. -/
theorem witness_illegal :
    IllegalOpcode 0x00 ∧ IllegalOpcode 0x05 ∧ IllegalOpcode 0x1F ∧ IllegalOpcode 0x27 ∧ IllegalOpcode 0xFF := by
  unfold IllegalOpcode; decide

/-- PackUnpackInverse: a tag that fits, at its bound, and an image. -/
theorem witness_pack :
    ({ plainHeader with reservedTag := 2 ^ 32 - 1 } : WireHeader).reservedTag < 256 ^ Config.std.tagBytes ∧
      hdrC.length = Config.std.hdrBytes := by
  decide

/-- AssembledFrameDecodes: omitted data, and eight bytes of it. -/
theorem witness_assembled :
    ((none : Option Bytes).getD []).length = (0 : Byte).toNat ∧ ((some (zeros 8)).getD []).length = (8 : Byte).toNat := by
  decide

/-- StepRunsDecodedCommand. -/
theorem witness_stepRuns :
    let s := fresh Config.std [0x03, 0x01]
    s.usable ∧ s.activity = .idle ∧ s.commands = [0x03, 0x01] :: [] ∧
      decode s.cfg .command [0x03, 0x01] = .ok (.receive .finite) :=
  ⟨⟨rfl, rfl⟩, rfl, rfl, by decide⟩

/-- A block whose decode of `hdr` is in progress, before its payload read. -/
def decodingOf (hdr : Bytes) : State := { State.reset with activity := .decoding .finite hdr none }

/-- A block that parses the datagram `d`. -/
def parsingOf (d : Bytes) : State := { State.init cfgAtomic with activity := .parsing d }

/-- StepContinuesOperation, each clause; StepKeepsInvariant and NoUnderflowInStreamMode, with a decode in progress. -/
theorem witness_stepContinues :
    (decodingOf hdrK81).usable ∧
      decode Config.std .wire hdrK81 = .ok (.kindCanFrameCrc (unpackHeader Config.std hdrK81)) ∧
      (parsingOf (hdrA ++ payA)).usable ∧
      decode cfgAtomic .wire (slice (hdrA ++ payA) 0 cfgAtomic.hdrBytes) = .ok (.kindCanFrame plainHeader) ∧
      ({ State.reset with activity := .sending frame2 } : State).usable ∧
      ({ State.reset with activity := .receiving .none } : State).usable :=
  ⟨⟨rfl, rfl⟩, by decide, ⟨rfl, rfl⟩, by decide, ⟨rfl, rfl⟩, ⟨rfl, rfl⟩⟩

theorem decoding_inv : Inv (decodingOf hdrA) :=
  ⟨by decide, by decide, fun _ => rfl, fun _ => rfl, .inl rfl, ⟨rfl, rfl, by decide, nofun⟩, nofun, nofun⟩

theorem decoding_steps : ∃ t, step (decodingOf hdrA) = .next t ∧ (decodingOf hdrA).cfg.readerMode = .streamLoop :=
  ⟨_, rfl, rfl⟩

/-- MarkedBlockHasNoStep, each clause. -/
theorem witness_marked :
    ({ State.reset with fault := some .closed } : State).fault = some .closed ∧
      ({ State.reset with refused := some .badOperand } : State).fault = none ∧
      ({ State.reset with refused := some .badOperand } : State).refused = some .badOperand ∧
      step State.reset = .next State.reset :=
  ⟨rfl, rfl, rfl, rfl⟩

/-- IdleBlockWaits: a run that has ended well. -/
theorem witness_idle :
    State.reset.usable ∧ State.reset.activity = .idle ∧ State.reset.commands = [] ∧
      ({ State.reset with results := [.noFrame .timeout] } : State).endedWell :=
  ⟨⟨rfl, rfl⟩, rfl, rfl, rfl, rfl, ⟨_, rfl, rfl⟩, rfl, rfl⟩

/-- ConstructionChecksAndResets: legal configurations, and one that each check refuses. -/
theorem witness_construct :
    cfg8.Legal ∧ ¬ ({ Config.std with tagBytes := 6 } : Config).Legal ∧
      ¬ ({ Config.std with idBits := 27 } : Config).Legal ∧ ¬ ({ Config.std with chunkBytes := 0 } : Config).Legal ∧
      ({ Config.std with chunkBytes := 1 } : Config).Legal ∧
      construct Config.std .made .made = .next State.reset ∧ step State.reset = .next State.reset ∧
      construct Config.std .made .failed = .fault (.endpointFailed .socket) := by
  refine ⟨by decide, by decide, by decide, by decide, by decide, rfl, rfl, rfl⟩

/-- The accessor statements. -/
theorem witness_accessors : hdrA.length = State.reset.cfg.hdrBytes ∧ State.reset.cfg.Legal := by decide

/-- EncodeAnswersDatagram, PacketSizeIsDatagramLength, EncoderIgnoresTimestampAndFdRemote and RoundTripOfValidFrames. -/
theorem witness_encode :
    State.reset.cfg.Legal ∧ Valid frameMax ∧ frameMax.isFd = true ∧ State.reset.life = .opened ∧ State.reset.buf = [] ∧
      (encodeDatagram Config.std frameMax).length ≤ Config.std.chunkBytes ∧
      (hearing Config.std [0x03, 0x00] [.dgram (encodeDatagram Config.std frameMax)]).rxAnswers =
        .dgram (encodeDatagram Config.std frameMax) :: [] :=
  ⟨by decide, valid_frameMax, rfl, rfl, rfl, by decide, rfl⟩

/-- InvalidFramesRefused. -/
theorem witness_invalid : ¬ Valid { frame2 with dlc := 9, data := zeros 9 } ∧ State.reset.life = .opened :=
  ⟨invalid_frames.1, rfl⟩

/-- SendTransmitsOneDatagram, each clause (a closed block and an invalid frame stand in `witness_closed` and
`witness_invalid`), and SendWaitsForTransmitAnswer. -/
theorem witness_send :
    State.reset.cfg.Legal ∧ Valid frame2 ∧ State.reset.life = .opened ∧ State.reset.txAnswers = [] ∧
      ({ State.reset with txAnswers := [.sent] } : State).txAnswers = .sent :: [] ∧
      ({ State.reset with txAnswers := [.sockErr] } : State).txAnswers = .sockErr :: [] :=
  ⟨by decide, valid_frame2, rfl, rfl, rfl, rfl⟩

/-- ShutdownClosesOnce and LifecycleGating. -/
theorem witness_closed :
    State.reset.life = .opened ∧ ({ State.reset with life := .closed } : State).life = .closed ∧ Valid frame2 ∧
      hdrA.length = State.reset.cfg.hdrBytes :=
  ⟨rfl, rfl, valid_frame2, by decide⟩

/-- ReadTakesOrReceives, each clause: exactly enough bytes buffered, and one too few with each answer. -/
theorem witness_read :
    4 ≤ ({ State.reset with buf := [1, 2, 3, 4] } : State).buf.length ∧
      ({ State.reset with buf := [1, 2, 3] } : State).buf.length < 4 ∧
      ({ State.reset with rxAnswers := [.dgram [5]] } : State).rxAnswers = .dgram [5] :: [] ∧
      ({ State.reset with rxAnswers := [.timedOut] } : State).rxAnswers = .timedOut :: [] ∧
      ({ State.reset with rxAnswers := [.sockErr] } : State).rxAnswers = .sockErr :: [] := by
  decide

/-- ReadConservesBytes: vectors RD1 and RD8. -/
theorem witness_conserves :
    readBytes 4 .none { State.reset with buf := [0xAA, 0xBB], rxAnswers := [.dgram [0xCC, 0xDD, 0xEE]] } =
        (.bytes [0xAA, 0xBB, 0xCC, 0xDD], { State.reset with buf := [0xEE] }) ∧
      readBytes 4 .none
          { State.init { Config.std with chunkBytes := 2 } with rxAnswers := [.dgram [1, 2, 3], .dgram [4, 5]] } =
        (.bytes [1, 2, 4, 5], State.init { Config.std with chunkBytes := 2 }) :=
  ⟨rfl, rfl⟩

/-! Whole datagrams of the four kinds, with `frame_size` at 5, at its bounds 8 and 64, at 2 and at 0. -/

theorem whole_A : WholeDatagram Config.std hdrA payA [] := by
  unfold WholeDatagram; decide

theorem whole_classic8 : WholeDatagram Config.std (hdrA.take 17 ++ 8 :: hdrA.drop 18) (zeros 8) [] := by
  unfold WholeDatagram; decide

theorem whole_K81 : WholeDatagram Config.std hdrK81 (zeros 8) (zeros 4) := by
  unfold WholeDatagram; decide

theorem whole_fd64 : WholeDatagram Config.std (hdrD.take 17 ++ 64 :: hdrD.drop 18) (zeros 64) [] := by
  unfold WholeDatagram; decide

theorem whole_fdCrc0 : WholeDatagram Config.std (hdrK91.take 17 ++ 0 :: hdrK91.drop 18) [] (zeros 4) := by
  unfold WholeDatagram; decide

/-- ReceiveDecodesBufferedDatagram. -/
theorem witness_receiveStream :
    let s := { State.reset with buf := hdrK81 ++ zeros 8 ++ zeros 4 ++ [1] }
    s.cfg.Legal ∧ s.life = .opened ∧ s.cfg.readerMode = .streamLoop ∧
      WholeDatagram s.cfg hdrK81 (zeros 8) (zeros 4) ∧ s.buf = hdrK81 ++ zeros 8 ++ zeros 4 ++ [1] :=
  ⟨by decide, rfl, rfl, whole_K81, rfl⟩

/-- ReceiveParsesAtomicDatagram, with a byte after the frame. -/
theorem witness_receiveAtomic :
    let d := hdrA ++ payA ++ [] ++ [7]
    let s := { State.init cfgAtomic with rxAnswers := [.dgram d] }
    s.cfg.Legal ∧ s.life = .opened ∧ s.cfg.readerMode = .datagramAtomic ∧ WholeDatagram s.cfg hdrA payA [] ∧
      s.rxAnswers = .dgram d :: [] ∧ d.take s.cfg.chunkBytes = hdrA ++ payA ++ [] ++ [7] :=
  ⟨by decide, rfl, rfl, whole_A, rfl, by decide⟩

/-- The datagram of vector G8: a header alone, of a classic frame one byte too long. -/
def hdrG8 : Bytes := hdrA.take 17 ++ 9 :: hdrA.drop 18

/-- A header alone, of an FD CRC frame one byte too long. -/
def hdrFd65 : Bytes := hdrK91.take 17 ++ 65 :: hdrK91.drop 18

/-- AtomicReceiveWithoutFrame, each clause of a datagram: one byte short of a header, an unknown kind, a `frame_size` one
past each bound, and one byte short of the frame. -/
theorem witness_atomicNone :
    cfgAtomic.Legal ∧ cfgAtomic.readerMode = .datagramAtomic ∧ (hdrA.take 23).length < cfgAtomic.hdrBytes ∧
      cfgAtomic.hdrBytes ≤ hdrX7.length ∧ kindOf hdrX7 ∉ [0x80, 0x81, 0x90, 0x91] ∧
      cfgAtomic.hdrBytes ≤ hdrG8.length ∧ kindOf hdrG8 = 0x80 ∧ 8 < frameSizeOf cfgAtomic hdrG8 ∧
      cfgAtomic.hdrBytes ≤ hdrFd65.length ∧ kindOf hdrFd65 = 0x91 ∧ 64 < frameSizeOf cfgAtomic hdrFd65 ∧
      (let d := hdrA ++ payA.take 7
       cfgAtomic.hdrBytes ≤ d.length ∧ WholeDatagram cfgAtomic (d.take cfgAtomic.hdrBytes) payA [] ∧
        d.length < cfgAtomic.hdrBytes + payA.length + ([] : Bytes).length) :=
  ⟨by decide, rfl, by decide, by decide, by decide, by decide, by decide, by decide, by decide, by decide, by decide,
    by decide, whole_A, by decide⟩

/-- G8: the size check comes before the underflow. -/
theorem test_receive_size_first :
    (after (hearing cfgAtomic [0x03, 0x00] [.dgram hdrG8])).map (fun t => (t.fault, t.warnlog)) =
      some (some .classicSize, []) := by
  decide

/-- StreamReceiveWithoutHeader: 20 bytes buffered and 3 received, under each answer that cuts the header short. -/
theorem witness_streamNone :
    let s := { State.reset with buf := hdrA.take 20, rxAnswers := [.dgram [0, 0, 0], .timedOut] }
    s.life = .opened ∧ s.cfg.readerMode = .streamLoop ∧ s.rxAnswers = [[0, 0, 0]].map .dgram ++ [.timedOut] ∧
      (s.buf ++ chunks s.cfg.chunkBytes [[0, 0, 0]]).length < s.cfg.hdrBytes := by
  decide

/-- StreamDecodeCutShort, each clause: a payload one byte short, a trailer of three bytes after the payload, and one
after a payload already read. -/
theorem witness_cutShort :
    KnownKind (.kindCanFrameCrc plainHeader) plainHeader false true ∧ plainHeader.frameSize.toNat ≤ maxSize false ∧
      (let s := { decodingOf hdrK81 with buf := [0, 1], rxAnswers := [.dgram (zeros 5), .sockErr] }
       s.activity = .decoding .finite hdrK81 none ∧ s.rxAnswers = [zeros 5].map .dgram ++ [.sockErr] ∧
        (s.buf ++ chunks s.cfg.chunkBytes [zeros 5]).length < payloadLength false plainHeader) ∧
      (let s := { decodingOf hdrK81 with rxAnswers := [.dgram payA, .dgram [1, 2, 3], .timedOut] }
       s.rxAnswers = [payA, [1, 2, 3]].map .dgram ++ [.timedOut] ∧
        s.buf ++ chunks s.cfg.chunkBytes [payA, [1, 2, 3]] = payA ++ [1, 2, 3] ∧
        payA.length = payloadLength false plainHeader) ∧
      (let s := { State.reset with activity := .decoding .none hdrK81 (some payA), rxAnswers := [.dgram [1, 2, 3]] }
       s.rxAnswers = [[1, 2, 3]].map .dgram ++ [] ∧ (s.buf ++ chunks s.cfg.chunkBytes [[1, 2, 3]]).length < 4) := by
  refine ⟨.inr (.inl ⟨rfl, rfl, rfl⟩), ?_⟩
  decide

/-- ReceiveHandsHeaderToKind, the header READ over two datagrams and the hand-over of one datagram; its first clause
stands in `witness_unknownHeader`. -/
theorem witness_handOver :
    (∃ u, readBytes Config.std.hdrBytes .none
        { State.reset with rxAnswers := [.dgram (hdrA.take 10), .dgram (hdrA.drop 10 ++ payA)] } = (.bytes hdrA, u)) ∧
      decode Config.std .wire hdrA = .ok (.kindCanFrame plainHeader) ∧
      cfgAtomic.hdrBytes ≤ (hdrA.take cfgAtomic.chunkBytes).length ∧
      decode cfgAtomic .wire ((hdrA.take cfgAtomic.chunkBytes).take cfgAtomic.hdrBytes) = .ok (.kindCanFrame plainHeader) :=
  ⟨⟨_, rfl⟩, by decide, by decide, by decide⟩

/-- UnknownKindConsumesOnlyHeader and ReceiveHandsHeaderToKind. -/
theorem witness_unknownHeader :
    hdrX7.length = Config.std.hdrBytes ∧ kindOf hdrX7 ∉ [0x80, 0x81, 0x90, 0x91] ∧
      decode Config.std .wire hdrX7 = .ok (.kindUnknown { plainHeader with frameKind := 0x82 }) ∧
      ({ State.reset with buf := hdrX7 ++ [1] } : State).buf = hdrX7 ++ [1] := by
  decide

/-- PartialFrameTimeoutKeepsPayload: seven of eight payload bytes. -/
theorem witness_partial :
    let s := { State.reset with buf := hdrA ++ payA.take 7, rxAnswers := [.timedOut] }
    s.cfg.Legal ∧ s.life = .opened ∧ s.cfg.readerMode = .streamLoop ∧ WholeDatagram s.cfg hdrA payA [] ∧
      (payA.take 7).length < payA.length ∧ s.buf = hdrA ++ payA.take 7 ∧ s.rxAnswers = .timedOut :: [] :=
  ⟨by decide, rfl, rfl, whole_A, by decide, rfl, rfl⟩

/-- DatagramBoundariesIgnored: two datagrams in one, and one split one byte before its end. -/
theorem witness_boundaries :
    WholeDatagram Config.std hdrA payA [] ∧ WholeDatagram Config.std hdrK81 (zeros 8) (zeros 4) ∧
      (hdrA ++ payA ++ [] ++ hdrK81 ++ zeros 8 ++ zeros 4).length ≤ Config.std.chunkBytes ∧
      (hdrA ++ payA.take 7) ++ payA.drop 7 = hdrA ++ payA ++ [] ∧
      (hdrA ++ payA.take 7).length < 20 + Config.std.tagBytes + payA.length + ([] : Bytes).length :=
  ⟨whole_A, whole_K81, by decide, by decide, by decide⟩

/-- The kind statements: each kind, at the largest `frame_size` and one past it. -/
theorem witness_kinds :
    KnownKind (.kindCanFrame { plainHeader with frameSize := 8 }) { plainHeader with frameSize := 8 } false false ∧
      KnownKind (.kindCanFrameCrc plainHeader) plainHeader false true ∧
      KnownKind (.kindCanFdFrame plainHeader) plainHeader true false ∧
      KnownKind (.kindCanFdFrameCrc plainHeader) plainHeader true true ∧
      (8 : Byte).toNat ≤ maxSize false ∧ maxSize false < (9 : Byte).toNat ∧ (64 : Byte).toNat ≤ maxSize true ∧
      maxSize true < (65 : Byte).toNat ∧ (zeros 8).length = payloadLength false plainHeader ∧
      (zeros 5).length = payloadLength true plainHeader := by
  refine ⟨.inl ⟨rfl, rfl, rfl⟩, .inr (.inl ⟨rfl, rfl, rfl⟩), .inr (.inr (.inl ⟨rfl, rfl, rfl⟩)),
    .inr (.inr (.inr ⟨rfl, rfl, rfl⟩)), ?_⟩
  decide

/-- KindsCompleteInStreamDecode, both clauses, and UnknownKindWarns. -/
theorem witness_kindsStream :
    ({ decodingOf hdrA with buf := payA ++ [] ++ [1] } : State).activity = .decoding .finite hdrA none ∧
      ({ decodingOf hdrA with buf := payA ++ [] ++ [1] } : State).buf = payA ++ [] ++ [1] ∧
      ({ State.reset with activity := .decoding .none hdrK81 (some payA), buf := zeros 4 ++ [1] } : State).activity =
        .decoding .none hdrK81 (some payA) :=
  ⟨rfl, rfl, rfl⟩

/-- KindsCompleteInAtomicDecode: exactly enough bytes, and one too few. -/
theorem witness_kindsAtomic :
    (parsingOf (hdrA ++ payA)).activity = .parsing (hdrA ++ payA) ∧
      cfgAtomic.hdrBytes + payloadLength false plainHeader + 0 ≤ (hdrA ++ payA).length ∧
      (hdrA ++ payA.take 7).length < cfgAtomic.hdrBytes + payloadLength false plainHeader + 0 := by
  decide

/-- KindsOutsideDecodeRefused, for every kind. -/
theorem witness_outside :
    (Instr.kindCanFrame plainHeader).space = .wire ∧ (Instr.kindUnknown plainHeader).space = .wire ∧
      State.reset.activity = .idle :=
  ⟨rfl, rfl, rfl⟩

/-- DecoderIgnoresOtherFields: vector X12 against `A`, whose other fields all differ. -/
theorem witness_ignores :
    let h := plainHeader
    let g : WireHeader := { packetSize := 0xFFFF, frameKind := 0x80, reservedTag := 0xDEADBEEF, timestampLow := 0x01020304
                            timestampHigh := 0x05060708, channel := 7, frameSize := 5, frameFlags := 0x008E
                            frameIdRaw := 0x70000045 }
    h.frameKind = g.frameKind ∧ h.frameSize = g.frameSize ∧
      (∀ j, j = 0 ∨ j = 5 ∨ j = 6 → h.frameFlags.getLsbD j = g.frameFlags.getLsbD j) ∧
      ∀ j, j < Config.std.idBits ∨ j = 31 → h.frameIdRaw.getLsbD j = g.frameIdRaw.getLsbD j := by
  refine ⟨rfl, rfl, ?_, ?_⟩
  · rintro j (rfl | rfl | rfl) <;> decide
  · have small : ∀ j < 28, (0x45#32).getLsbD j = (0x70000045#32).getLsbD j := by decide
    rintro j (hj | rfl)
    · exact small j hj
    · decide

/-- EveryOperationEndsInOneOutcome, OnlyTheseInstructionsWrite and ReceiveAnswersFrameOrNone: an instruction that ends,
and one that stays in progress. -/
theorem witness_outcomes :
    exec .shutdown State.reset = .next (returnOk .unit { State.reset with life := .closed }) ∧
      exec (.receive .none) State.reset = .next { State.reset with activity := .receiving .none } ∧
      ∃ t, exec (.receive .finite) { State.reset with rxAnswers := [.timedOut] } = .next t ∧
        t.results = State.reset.results ++ [.noFrame .timeout] :=
  ⟨rfl, rfl, _, rfl, rfl⟩

/-- LogsOnlyGrow and OneTimeDrawPerFrame: a step that returns a frame. -/
theorem witness_frameStep :
    ∃ t, step { State.reset with commands := [[0x03, 0x00]], buf := hdrA ++ payA } = .next t ∧
      t.timeDraws = State.reset.timeDraws + 1 ∧ t.buf = [] :=
  ⟨_, rfl, rfl, rfl⟩

/-- AtomicReceiveTakesOneAnswer. -/
theorem witness_atomicOpen :
    (State.init cfgAtomic).life = .opened ∧ (State.init cfgAtomic).cfg.readerMode = .datagramAtomic :=
  ⟨rfl, rfl⟩

/-! ## The table's words -/

/-- The words of spec/opcode_table.json decode, and the step runs them from reset. -/
theorem test_table_words :
    decodeTableWord 8 0x03 = some (.receive .none) ∧ decodeTableWord 8 0x25 = some (.getId (zeros 24)) ∧
      (decodeTableWord 16 0x0091).map (·.space) = some .wire ∧
      (after (State.reset.withFetchWord 8 0x04)).map (·.life) = some .closed ∧
      (after (State.reset.withFetchWord 16 0x0082)).map (·.warnlog) = some [.unknownKind 0x0082] := by
  decide

end Sys2Proof.Tests
end

section
/-! SUPPORT. The configuration is fixed at construction (spec/10_state.md R68, spec/70_reset_and_hazards.md R600): no end
of an operation, and so no step, writes it. -/

namespace Sys2Proof.Machine

@[simp] theorem closeBlock_cfg (s : State) : (closeBlock s).cfg = s.cfg := by
  unfold closeBlock
  split <;> rfl

/-- An arm of a defined kind leaves the configuration: it ends in the state its reads left. -/
theorem ArmEnds.cfg_eq {cls : FrameClass} {h : WireHeader} {s t : State} (e : ArmEnds cls h s t) : t.cfg = s.cfg := by
  cases e with
  | waits u _ _ _ _ hu => exact hu.cfg_eq
  | timeout u hu => exact hu.cfg_eq
  | fault u _ hu => exact hu.cfg_eq
  | underflow => rfl
  | frame u _ hu => exact hu.cfg_eq

theorem KindEnds.cfg_eq {h : WireHeader} {s t : State} (e : KindEnds h s t) : t.cfg = s.cfg := by
  cases e with
  | arm _ _ he => exact he.cfg_eq
  | unknown => rfl

/-- A RECEIVE leaves the configuration, whether it ends by itself or hands its header to a kind. -/
theorem ReceiveEnds.cfg_eq {s t : State} (e : ReceiveEnds s t) : t.cfg = s.cfg := by
  cases e with
  | closed => rfl
  | waits u _ hu => exact hu.cfg_eq
  | timeout u hu => exact hu.cfg_eq
  | socket u hu => exact hu.cfg_eq
  | underflow u _ _ hu => exact hu.cfg_eq
  | stream u _ _ _ hu _ _ _ hx => exact (dispatchKind_ends hx).cfg_eq.trans hu.cfg_eq
  | atomic u _ _ hu _ _ _ _ hx => exact (dispatchKind_ends hx).cfg_eq.trans hu.cfg_eq

theorem SendEnds.cfg_eq {f : CanFrame} {s t : State} (e : SendEnds f s t) : t.cfg = s.cfg := by
  cases e <;> rfl

/-- No instruction writes the configuration. -/
theorem exec_cfg {i : Instr} {s t : State} (h : exec i s = .next t) : t.cfg = s.cfg := by
  cases exec_ends h with
  | ok => rfl
  | refuse => rfl
  | send _ _ he => exact he.cfg_eq
  | receive _ _ he => exact he.cfg_eq
  | shutdown => exact closeBlock_cfg s
  | kind _ _ _ _ _ he => exact he.cfg_eq

/-- No step writes the configuration (R600). -/
theorem step_cfg {s t : State} (h : step s = .next t) : t.cfg = s.cfg := by
  obtain ⟨-, he⟩ := step_ends h
  cases he with
  | idle => rfl
  | command _ rest _ _ _ _ _ hx => exact exec_cfg (s := { s with commands := rest }) hx
  | badOperand => rfl
  | sending _ _ _ hx => exact exec_cfg hx
  | receiving _ _ _ hx => exact exec_cfg hx
  | decoding _ _ _ _ _ _ hx => exact exec_cfg hx
  | parsing _ _ _ hx => exact exec_cfg hx

end Sys2Proof.Machine
end

section
/-! SUPPORT. What construction answers (spec/70_reset_and_hazards.md R600 to R602), one equation per outcome, and the
proof of the statement about it. -/

namespace Sys2Proof.Machine

theorem construct_of_not_legal {c : Config} (h : ¬ c.Legal) (tx rx : EndpointAnswer) :
    construct c tx rx = .refused .illegalConfig :=
  if_neg h

theorem construct_of_failed {c : Config} {tx rx : EndpointAnswer} (h : c.Legal) (hf : tx = .failed ∨ rx = .failed) :
    construct c tx rx = .fault (.endpointFailed .socket) := by
  refine (if_pos h).trans ?_
  rcases hf with rfl | rfl
  · rfl
  · cases tx <;> rfl

theorem construct_of_made {c : Config} (h : c.Legal) : construct c .made .made = .next (State.init c) :=
  if_pos h

/-- A freshly constructed block waits for the host's first command (R71, R600). -/
theorem step_init (c : Config) : step (State.init c) = .next (State.init c) := rfl

/-- Settles O13: construction has one equation per outcome, the state it leaves is that of R71, and no step writes the
configuration because none of its ends does. -/
theorem constructionChecksAndResets : Obligations.ConstructionChecksAndResets := by
  refine ⟨fun c tx rx => ⟨fun h => construct_of_not_legal h tx rx, construct_of_failed, ?_⟩, fun s t => step_cfg⟩
  rintro h rfl rfl
  exact ⟨State.init c, construct_of_made h, rfl, rfl, rfl, rfl, rfl, rfl, rfl, step_init c⟩

end Sys2Proof.Machine
end

section
/-! SUPPORT. The command decoder, case by case (spec/30_encoding.md R180 to R186): which opcodes the map holds, what an
illegal command and a command of a legal opcode decode to, and when the operands of each format are malformed. -/

namespace Sys2Proof

open Sys2Proof.Stated

@[simp] theorem byteAt_cons_zero (b : Byte) (B : Bytes) : byteAt (b :: B) 0 = b := rfl

@[simp] theorem byteAt_cons_succ (b : Byte) (B : Bytes) (i : Nat) : byteAt (b :: B) (i + 1) = byteAt B i := rfl

/-- The opcode map leaves out exactly the ranges of R185. -/
theorem opcodeOf_eq_none_iff (b : Byte) : opcodeOf b = none ↔ IllegalOpcode b := by
  unfold IllegalOpcode
  revert b
  decide

/-- An opcode outside the ranges of R185 is the byte of an entry of the map. -/
theorem exists_opcode_byte {b : Byte} (h : ¬ IllegalOpcode b) : ∃ o : Opcode, b = o.byte := by
  rw [← opcodeOf_eq_none_iff, ← ne_eq, Option.ne_none_iff_exists'] at h
  obtain ⟨o, ho⟩ := h
  exact ⟨o, opcodeOf_some ho⟩

/-- An illegal command decodes to ILLEGAL (R185). -/
theorem decode_illegal (c : Config) {op : Byte} (rest : Bytes) (h : IllegalOpcode op) :
    decode c .command (op :: rest) = .ok (.illegal (op :: rest)) := by
  simp [decode, decodeCommand, (opcodeOf_eq_none_iff op).2 h]

/-- A command of a legal opcode decodes as its operands do. -/
theorem decode_opcode (c : Config) (o : Opcode) (rest : Bytes) :
    decode c .command (o.byte :: rest) = (decodeOperands c rest o).elim (.error .badOperand) .ok := by
  cases h : decodeOperands c rest o <;> simp [decode, decodeCommand, h]

theorem decode_opcode_eq_ok_iff (c : Config) (o : Opcode) (rest : Bytes) (i : Instr) :
    decode c .command (o.byte :: rest) = .ok i ↔ decodeOperands c rest o = some i := by
  rw [decode_opcode]
  cases decodeOperands c rest o <;> simp

/-- No operands spell ILLEGAL. -/
theorem decodeOperands_ne_illegal (c : Config) (rest cmd : Bytes) (o : Opcode) :
    decodeOperands c rest o ≠ some (.illegal cmd) := by
  cases o <;> simp [decodeOperands]

/-! When the operand bytes of each format are malformed (R186). -/

theorem decodeFrame_eq_none_iff (rest : Bytes) :
    decodeFrame rest = none ↔ rest.length ≠ 6 + (byteAt rest 4).toNat ∨ 32 ≤ (byteAt rest 5).toNat := by
  match rest with
  | [] | [_] | [_, _] | [_, _, _] | [_, _, _, _] | [_, _, _, _, _] =>
    exact iff_of_true rfl (.inl (by simp only [List.length_cons, List.length_nil]; omega))
  | _ :: _ :: _ :: _ :: _ :: _ :: _ => simp [decodeFrame, imp_iff_not_or, Nat.add_comm 6]

theorem decodeTimeout_eq_none_iff (rest : Bytes) :
    decodeTimeout rest = none ↔ rest.length ≠ 1 ∨ (byteAt rest 0 ≠ 0x00 ∧ byteAt rest 0 ≠ 0x01) := by
  match rest with
  | [] => simp [decodeTimeout]
  | [t] => by_cases h0 : t = 0x00#8 <;> by_cases h1 : t = 0x01#8 <;> simp [decodeTimeout, h0, h1]
  | _ :: _ :: _ => simp [decodeTimeout]

theorem decodeImage_eq_none_iff (c : Config) (rest : Bytes) :
    decodeImage c rest = none ↔ rest.length ≠ c.hdrBytes := by
  by_cases h : rest.length = c.hdrBytes <;> simp [decodeImage, h]

theorem decodeNone_eq_none_iff (rest : Bytes) : decodeNone rest = none ↔ rest.length ≠ 0 := by
  cases rest <;> simp [decodeNone]

/-- The operands of a legal opcode fail to decode exactly when the command is malformed (R186). -/
theorem decodeOperands_eq_none_iff (c : Config) (rest : Bytes) (o : Opcode) :
    decodeOperands c rest o = none ↔ Malformed c (o.byte :: rest) := by
  cases o with
  | encode | send =>
    have hlen (n : Nat) : rest.length + 1 = 7 + n ↔ rest.length = 6 + n := by omega
    simp [decodeOperands, Malformed, Opcode.byte, decodeFrame_eq_none_iff, hlen]
  | receive => simp [decodeOperands, Malformed, Opcode.byte, decodeTimeout_eq_none_iff]
  | shutdown => simp [decodeOperands, Malformed, Opcode.byte, decodeNone_eq_none_iff]
  | isRemoteRequest | isFdFlagged | isBitrateSwitch | isErrorState | isExtendedId | getId | summary =>
    have hlen (n : Nat) : rest.length + 1 = 21 + n ↔ rest.length = 20 + n := by omega
    simp [decodeOperands, Malformed, Opcode.byte, decodeImage_eq_none_iff, Config.hdrBytes, hlen]

/-- A malformed command is rejected (R186). -/
theorem decode_malformed {c : Config} {o : Opcode} {rest : Bytes} (h : Malformed c (o.byte :: rest)) :
    decode c .command (o.byte :: rest) = .error .badOperand := by
  rw [decode_opcode, (decodeOperands_eq_none_iff c rest o).2 h]
  rfl

/-- A command of a legal opcode that is not malformed decodes (R186). -/
theorem exists_decode_of_not_malformed {c : Config} {o : Opcode} {rest : Bytes} (h : ¬ Malformed c (o.byte :: rest)) :
    ∃ i, decode c .command (o.byte :: rest) = .ok i := by
  rw [← decodeOperands_eq_none_iff, ← ne_eq, Option.ne_none_iff_exists'] at h
  obtain ⟨i, hi⟩ := h
  exact ⟨i, (decode_opcode_eq_ok_iff c o rest i).2 hi⟩

/-- Exactly the empty command and the commands of an illegal opcode decode to ILLEGAL (R185). -/
theorem decode_eq_illegal_iff (c : Config) (cmd : Bytes) :
    decode c .command cmd = .ok (.illegal cmd) ↔ cmd = [] ∨ IllegalOpcode (byteAt cmd 0) := by
  match cmd with
  | [] => simp [decode, decodeCommand]
  | op :: rest =>
    by_cases hop : IllegalOpcode op
    · simp [decode_illegal c rest hop, hop]
    · obtain ⟨o, rfl⟩ := exists_opcode_byte hop
      exact iff_of_false (fun hd => decodeOperands_ne_illegal c rest _ o ((decode_opcode_eq_ok_iff ..).1 hd))
        (by simpa using hop)

end Sys2Proof
end

section
/-! SUPPORT. The step of an idle block on its oldest command (spec/20_memory.md R110, spec/30_encoding.md R180), and the
proofs of the statements about illegal and malformed commands. -/

namespace Sys2Proof.Machine

open Sys2Proof.Stated

section idle

variable {s : State} {cmd : Bytes} {rest : List Bytes}
  (hu : s.usable) (ha : s.activity = .idle) (hc : s.commands = cmd :: rest)

include hu ha hc

/-- A command that decodes is taken and its instruction runs. -/
theorem step_of_decode_ok {i : Instr} (hd : decode s.cfg .command cmd = .ok i) :
    step s = exec i { s with commands := rest } := by
  obtain ⟨hf, hr⟩ := hu
  simp only [step, fetch, fetchedOf, hf, hr, ha, hc, hd]

/-- A command that does not decode is taken and rejected. -/
theorem step_of_decode_error {r : Reject} (hd : decode s.cfg .command cmd = .error r) :
    step s = rejectBytes r { s with commands := rest } := by
  obtain ⟨hf, hr⟩ := hu
  simp only [step, fetch, fetchedOf, hf, hr, ha, hc, hd]

end idle

/-- Settles O4: the commands that decode to ILLEGAL are those of R185, and its meaning is the refusal. -/
theorem illegalCommandsRefused : Obligations.IllegalCommandsRefused :=
  ⟨decode_eq_illegal_iff, fun _ _ => rfl⟩

/-- Settles O5: a command of a legal opcode decodes exactly when it is not malformed (R186), and the step of an idle
block follows what its oldest command decodes to. -/
theorem malformedCommandsRefused : Obligations.MalformedCommandsRefused := by
  intro s cmd rest hu ha hc hne hop
  obtain ⟨op, operands, rfl⟩ := List.exists_cons_of_ne_nil hne
  obtain ⟨o, rfl⟩ := exists_opcode_byte hop
  refine ⟨fun hm => step_of_decode_error hu ha hc (decode_malformed hm), fun hm => ?_⟩
  obtain ⟨i, hi⟩ := exists_decode_of_not_malformed hm
  exact ⟨i, hi, step_of_decode_ok hu ha hc hi⟩

end Sys2Proof.Machine
end

section
/-! SUPPORT. The seven header accessors (spec/40_header.md R204 to R211): the fields they read in terms of the image's
bytes, the answer and the command they share, and the proofs of the statements about them. -/

namespace Sys2Proof

open Sys2Proof.Stated

section image

variable {c : Config} {hdr : Bytes} (h : hdr.length = c.hdrBytes)

theorem unpack_frameIdRaw_toNat_eq_idRawOf (c : Config) (hdr : Bytes) :
    (unpackHeader c hdr).frameIdRaw.toNat = idRawOf c hdr := by
  have hend : c.offId + 4 = 20 + c.tagBytes := by simp only [Config.offId]; omega
  rw [unpack_frameIdRaw_toNat, hend]
  rfl

/-- The id of an image is its raw id modulo `2^ID_BITS` (R209). -/
theorem unpack_id_toNat (hl : c.Legal) (hdr : Bytes) :
    ((unpackHeader c hdr).id c).toNat = idRawOf c hdr % 2 ^ c.idBits := by
  rw [id_toNat c _ hl, unpack_frameIdRaw_toNat_eq_idRawOf]

include h

theorem unpack_flag_eq_flagOf {i : Nat} (hi : i < 8) :
    (unpackHeader c hdr).frameFlags.getLsbD i = flagOf c hdr i := by
  have hlow : c.offFlags + 1 = 15 + c.tagBytes := by simp only [Config.offFlags]; omega
  rw [unpack_frameFlags_bit c h hi, hlow]
  rfl

theorem unpack_extendedId_eq_extendedOf : (unpackHeader c hdr).extendedId = extendedOf c hdr :=
  unpack_extendedId c h

theorem unpack_frameSize_toNat_eq_frameSizeOf : (unpackHeader c hdr).frameSize.toNat = frameSizeOf c hdr :=
  congrArg BitVec.toNat (unpack_frameSize c h)

/-- An opcode whose operand is a header image decodes on a whole image (R183). -/
theorem decode_image (o : Opcode) {mk : Bytes → Instr}
    (ho : decodeOperands c hdr o = (decodeImage c hdr).map mk) :
    decode c .command (o.byte :: hdr) = .ok (mk hdr) := by
  rw [decode_opcode_eq_ok_iff, ho, decodeImage, if_pos h]
  rfl

end image

end Sys2Proof

namespace Sys2Proof.Machine

open Sys2Proof.Stated

/-- `hexlower` spells its value in base 16 (R211). -/
theorem hexlower_spells (v : U32) : Spells 16 (hexlower v) v.toNat :=
  digits_spells (by decide) (by decide) 7 v.toNat v.isLt

/-- `decimal` spells its value in base 10 (R211). -/
theorem decimal_spells (v : Byte) : Spells 10 (decimal v) v.toNat :=
  digits_spells (by decide) (by decide) 2 v.toNat (by omega)

section answer

variable {hdr : Bytes} {s : State} (h : hdr.length = s.cfg.hdrBytes)

include h

/-- An accessor on a whole image answers its function of the unpacked header and changes nothing else (R109). -/
theorem onHeader_answers (f : Config → WireHeader → Value) :
    onHeader hdr f s = .next (ended (.ok (f s.cfg (unpackHeader s.cfg hdr))) s) :=
  if_pos h

/-- An accessor of one of the low eight flags answers that flag of the image. -/
theorem onHeader_flag (i : Nat) (hi : i < 8) :
    onHeader hdr (fun _ w => .bool (w.frameFlags.getLsbD i)) s =
      .next (ended (.ok (.bool (flagOf s.cfg hdr i))) s) := by
  rw [onHeader_answers h, unpack_flag_eq_flagOf h hi]

end answer

/-- Settles O14: each flag accessor answers one bit of `frame_flags`, and that bit lies in the image's low flag byte. -/
theorem flagAccessorsAnswerTheirBit : Obligations.FlagAccessorsAnswerTheirBit := fun _ _ h =>
  ⟨onHeader_flag h 0 (by decide), onHeader_flag h 4 (by decide), onHeader_flag h 5 (by decide),
    onHeader_flag h 6 (by decide), decode_image h .isRemoteRequest rfl,
    decode_image h .isFdFlagged rfl, decode_image h .isBitrateSwitch rfl,
    decode_image h .isErrorState rfl⟩

/-- Settles O15: bit 31 of the unpacked id is the top bit of the image's first id byte. -/
theorem extendedIdAccessorAnswersBit31 : Obligations.ExtendedIdAccessorAnswersBit31 := by
  intro hdr s h
  refine ⟨?_, decode_image h .isExtendedId rfl⟩
  rw [← unpack_extendedId_eq_extendedOf h]
  exact onHeader_answers h fun _ w => .bool w.extendedId

/-- Settles O16: the answer is the unpacked header's masked id, which is a remainder modulo `2^ID_BITS`. -/
theorem idAccessorAnswersMaskedId : Obligations.IdAccessorAnswersMaskedId := by
  intro hdr s hl h
  have hv := unpack_id_toNat hl hdr
  refine ⟨(unpackHeader s.cfg hdr).id s.cfg, onHeader_answers h fun c w => .word (w.id c), hv, ?_,
    decode_image h .getId rfl⟩
  rw [hv]
  exact Nat.mod_lt _ (Nat.two_pow_pos _)

/-- Settles O17: the two numbers of the text are the spellings of the masked id and of the frame size. -/
theorem summaryAnswersText : Obligations.SummaryAnswersText := by
  intro hdr s hl h
  refine ⟨hexlower ((unpackHeader s.cfg hdr).id s.cfg), decimal (unpackHeader s.cfg hdr).frameSize, ?_, ?_, ?_,
    decode_image h .summary rfl⟩
  · rw [← unpack_extendedId_eq_extendedOf h]
    exact onHeader_answers h fun c w => .text (summaryText c w)
  · rw [← unpack_id_toNat hl hdr]
    exact hexlower_spells _
  · rw [← unpack_frameSize_toNat_eq_frameSizeOf h]
    exact decimal_spells _

end Sys2Proof.Machine
end

section
/-! SUPPORT. The encoder against the spec's own words (spec/41_encoder.md R250 to R257): the header's fields and the
payload of a valid frame, what the encoder does not read, and the proofs of the statements about it. -/

namespace Sys2Proof.Machine

open Sys2Proof.Stated

/-- The encoder's check is the validity of R62. -/
theorem validForEncode_iff_valid (f : CanFrame) : validForEncode f = true ↔ Valid f := by
  rw [validForEncode_iff, Valid]
  cases f.isFd <;> simp

/-! The sums of R252 write a bit's value with `if`, the encoder's laws as a product. -/

theorem ite_eq_mul_toNat (b : Bool) (n : Nat) : (if b = true then n else 0) = n * b.toNat := by
  cases b <;> simp

theorem ite_classicRemote_eq_mul_toNat (f : CanFrame) (n : Nat) :
    (if f.isFd = false ∧ f.remoteFrame = true then n else 0) = n * (!f.isFd && f.remoteFrame).toNat := by
  simp [← ite_eq_mul_toNat]

theorem flag4Set_eq_flag4 (c : Config) (f : CanFrame) : flag4Set c f = flag4 c f := rfl

theorem encodeFlags_toNat_eq_flagsSum (c : Config) (f : CanFrame) : (encodeFlags c f).toNat = flagsSum c f := by
  rw [encodeFlags_toNat, flagsSum, ite_classicRemote_eq_mul_toNat, one_mul, flag4Set_eq_flag4]
  simp only [ite_eq_mul_toNat]

theorem encodeIdRaw_toNat_eq_idSum {f : CanFrame} (h : f.arbitrationId.toNat < 2 ^ 29) :
    (encodeIdRaw f).toNat = idSum f := by
  rw [encodeIdRaw_toNat f h, idSum, ite_classicRemote_eq_mul_toNat, ite_eq_mul_toNat]

/-- The packet size does not wrap: `HDR` is at most 28 and `dlc` at most 255 (R252, R254). -/
theorem encodeHeader_packetSize_toNat {c : Config} {f : CanFrame} (hc : c.Legal) :
    (encodeHeader c f).packetSize.toNat = 20 + c.tagBytes + wirePayload f := by
  obtain ⟨htag, -, -⟩ := hc
  have hdlc := f.dlc.isLt
  have hpay : wirePayload f = if f.isFd then f.dlc.toNat else classicWirePayload := rfl
  have hfits : 20 + c.tagBytes + wirePayload f < 2 ^ 16 := by
    rw [hpay, classicWirePayload]
    split <;> omega
  exact Nat.mod_eq_of_lt hfits

/-- An FD frame's payload is its data, a classic frame's is padded to 8 bytes (R253). -/
theorem encodePayload_eq (f : CanFrame) :
    encodePayload f = f.data ++ zeros (wirePayload f - f.dlc.toNat) := by
  unfold encodePayload wirePayload
  cases f.isFd <;> simp [zeros, classicWirePayload]

/-- The kind's two bytes: FD data or classic (R252). -/
theorem be_encodeHeader_frameKind (c : Config) (f : CanFrame) :
    be 2 (encodeHeader c f).frameKind.toNat = [0x00, if f.isFd = true then 0x90 else 0x80] := by
  simp only [encodeHeader]
  cases f.isFd <;> decide

/-- The header of a valid frame, byte for byte: tag, timestamps and channel are one run of zeros (R252). -/
theorem headerBytes_encodeHeader {c : Config} {f : CanFrame} (hc : c.Legal) (hf : Valid f) :
    headerBytes c (encodeHeader c f) =
      be 2 (20 + c.tagBytes + wirePayload f) ++ [0x00, if f.isFd = true then 0x90 else 0x80] ++ zeros (c.tagBytes + 9)
        ++ [f.dlc] ++ be 2 (flagsSum c f) ++ be 4 (idSum f) := by
  have hzeros : zeros (c.tagBytes + 9) = be c.tagBytes 0 ++ be 4 0 ++ be 4 0 ++ be 1 0 := by
    simp only [be_zero, ← zeros_add]
  rw [headerBytes, encodeHeader_packetSize_toNat hc, be_encodeHeader_frameKind, hzeros,
    ← encodeFlags_toNat_eq_flagsSum, ← encodeIdRaw_toNat_eq_idSum hf.1, ← be_one f.dlc]
  simp only [encodeHeader, List.append_assoc]
  rfl

/-- The datagram of a valid frame is the spec's (R252 to R254). -/
theorem encodeDatagram_eq_wireImage {c : Config} {f : CanFrame} (hc : c.Legal) (hf : Valid f) :
    encodeDatagram c f = wireImage c f := by
  rw [encodeDatagram, packHeader_eq, headerBytes_encodeHeader hc hf, encodePayload_eq, wireImage, ← List.append_assoc]

/-- ENCODE of a valid frame answers its datagram (R250). -/
theorem execEncode_of_valid {f : CanFrame} (hf : Valid f) (s : State) :
    execEncode f s = .next (returnOk (.bytes (encodeDatagram s.cfg f)) s) :=
  if_pos ((validForEncode_iff_valid f).2 hf)

/-- ENCODE of any other frame refuses (R251). -/
theorem execEncode_of_not_valid {f : CanFrame} (hf : ¬ Valid f) (s : State) :
    execEncode f s = .next (refuse .encodePrecond s) :=
  if_neg (mt (validForEncode_iff_valid f).1 hf)

/-- SEND of such a frame refuses on an open block (R251, R400). -/
theorem execSend_of_not_valid {f : CanFrame} {s : State} (hl : s.life = .opened) (hf : ¬ Valid f) :
    execSend f s = .next (refuse .encodePrecond s) := by
  simp only [execSend, hl, if_neg (mt (validForEncode_iff_valid f).1 hf)]

/-- ENCODE reads a frame through its validity and its datagram only. -/
theorem execEncode_congr {f g : CanFrame} {s : State} (hv : validForEncode f = validForEncode g)
    (hd : encodeDatagram s.cfg f = encodeDatagram s.cfg g) : execEncode f s = execEncode g s := by
  rw [execEncode, execEncode, hv, hd]

section fd

variable {f : CanFrame} (hfd : f.isFd = true)

include hfd

/-- The header of an FD frame does not depend on `remote_frame` (R257). -/
theorem encodeHeader_remoteFrame_of_fd (c : Config) (b : Bool) :
    encodeHeader c { f with remoteFrame := b } = encodeHeader c f := by
  simp [encodeHeader, encodeFlags, encodeIdRaw, flag4, hfd]

theorem encodeDatagram_remoteFrame_of_fd (c : Config) (b : Bool) :
    encodeDatagram c { f with remoteFrame := b } = encodeDatagram c f := by
  rw [encodeDatagram, encodeDatagram, encodeHeader_remoteFrame_of_fd hfd]
  rfl

end fd

@[simp] theorem maskIf_getLsbD {w : Nat} (b : Bool) (m : BitVec w) (i : Nat) :
    (maskIf b m).getLsbD i = (b && m.getLsbD i) := by
  cases b <;> simp [maskIf]

/-- `frame_flags` bit 0 marks a classic remote frame (R252). -/
theorem encodeFlags_bit0 (c : Config) (f : CanFrame) : (encodeFlags c f).getLsbD 0 = (!f.isFd && f.remoteFrame) := by
  simp only [encodeFlags, BitVec.getLsbD_or, maskIf_getLsbD]
  simp

/-- `frame_id_raw` bit 30 does too, because the id lies below it (R252). -/
theorem encodeIdRaw_bit30 {f : CanFrame} (h : f.arbitrationId.toNat < 2 ^ 29) :
    (encodeIdRaw f).getLsbD 30 = (!f.isFd && f.remoteFrame) := by
  have hid : f.arbitrationId.getLsbD 30 = false := Nat.testBit_lt_two_pow (h.trans (by decide))
  simp only [encodeIdRaw, BitVec.getLsbD_or, maskIf_getLsbD, hid]
  simp

/-- Settles O18: the header's fields and the payload are the spec's byte strings; the answer joins them. -/
theorem encodeAnswersDatagram : Obligations.EncodeAnswersDatagram := by
  intro f s hc hf
  rw [← encodeDatagram_eq_wireImage hc hf]
  exact execEncode_of_valid hf s

/-- Settles O19: ENCODE and SEND make the same check, and SEND makes it after that of the lifecycle. -/
theorem invalidFramesRefused : Obligations.InvalidFramesRefused := fun _ s hf =>
  ⟨execEncode_of_not_valid hf s, fun hl => execSend_of_not_valid hl hf⟩

/-- Settles O20: the length fits the 16-bit field, which stands first in the header. -/
theorem packetSizeIsDatagramLength : Obligations.PacketSizeIsDatagramLength := by
  intro c f hc hf
  have hlen : (encodeDatagram c f).length = 20 + c.tagBytes + wirePayload f :=
    encodeDatagram_length c f ((validForEncode_iff_valid f).2 hf)
  rw [hlen]
  refine ⟨rfl, encodeHeader_packetSize_toNat hc, ?_⟩
  rw [encodeDatagram_eq_wireImage hc hf]
  simp only [wireImage, List.append_assoc]
  exact List.take_left' (be_length ..)

/-- Settles O21: neither the check nor the datagram reads the timestamp, and `remote_frame` counts for a classic frame
only. -/
theorem encoderIgnoresTimestampAndFdRemote : Obligations.EncoderIgnoresTimestampAndFdRemote := by
  refine fun f s => ⟨fun _ => execEncode_congr rfl rfl, rfl, rfl, fun hfd b => ?_, fun hfd hf => ⟨?_, ?_⟩⟩
  · exact execEncode_congr rfl (encodeDatagram_remoteFrame_of_fd hfd s.cfg b)
  · exact (encodeFlags_bit0 s.cfg f).trans (by simp [hfd])
  · exact (encodeIdRaw_bit30 hf.1).trans (by simp [hfd])

end Sys2Proof.Machine
end

section
/-! SUPPORT. The decoder (spec/42_decoder.md R308, R310, R311): which arm a kind runs, when the size check faults, what
an unknown kind does, which fields of a header a decode reads, and the proofs of the statements about them. -/

namespace Sys2Proof

/-- A header whose kind is none of the four selects KIND_UNKNOWN, and no other does (R160, R308). -/
theorem kindInstr_eq_kindUnknown_iff (h : WireHeader) :
    kindInstr h = .kindUnknown h ↔ h.frameKind.toNat ∉ [0x80, 0x81, 0x90, 0x91] := by
  have hnat (k : U16) : h.frameKind = k ↔ h.frameKind.toNat = k.toNat := BitVec.toNat_inj.symm
  simp only [kindInstr, hnat, List.mem_cons, List.not_mem_nil, or_false]
  split_ifs <;> simp_all

/-- The mask keeps the low `ID_BITS` bits (R9). -/
theorem idMask_getLsbD (c : Config) {j : Nat} (hj : j < 32) : c.idMask.getLsbD j = decide (j < c.idBits) := by
  rw [Config.idMask, BitVec.getLsbD_ofNat, Nat.testBit_two_pow_sub_one]
  simp [hj]

/-- The masked ids agree where the raw ids agree on the low `ID_BITS` bits (R162). -/
theorem id_eq_of_low_bits {c : Config} {h g : WireHeader}
    (hb : ∀ j, j < c.idBits → h.frameIdRaw.getLsbD j = g.frameIdRaw.getLsbD j) : h.id c = g.id c := by
  refine BitVec.eq_of_getLsbD_eq fun j hj => ?_
  rw [WireHeader.id, WireHeader.id, BitVec.getLsbD_and, BitVec.getLsbD_and, idMask_getLsbD c hj]
  by_cases hlow : j < c.idBits
  · rw [hb j hlow]
  · simp [hlow]

end Sys2Proof

namespace Sys2Proof.Machine

open Sys2Proof.Stated

/-- A decode is in progress, in either mode. -/
def DecodeInProgress (s : State) : Prop :=
  (∃ tmo hdr got, s.activity = .decoding tmo hdr got) ∨ Parsing s

/-- The class whose FD bit is `fd`. -/
def classOf (fd : Bool) : FrameClass := if fd = true then .fd else .classic

/-- Each defined kind runs the arm of its class, with its trailer (R160, R305, R306). -/
theorem exec_knownKind {i : Instr} {h : WireHeader} {fd crc : Bool} (hk : KnownKind i h fd crc) (s : State) :
    exec i s = decodeArm (classOf fd) crc h s := by
  obtain ⟨rfl, rfl, rfl⟩ | ⟨rfl, rfl, rfl⟩ | ⟨rfl, rfl, rfl⟩ | ⟨rfl, rfl, rfl⟩ := hk <;> rfl

/-- The size check faults exactly above the class's bound (R310). -/
theorem checkSize_classOf (fd : Bool) (F : Byte) :
    checkSize (classOf fd) F =
      if maxSize fd < F.toNat then some (if fd = true then .fdSize else .classicSize) else none := by
  cases fd <;> rfl

/-- A fault of the size check ends the arm before any stage of either mode (R301, R302). -/
theorem decodeArm_of_checkSize {cls : FrameClass} {crc : Bool} {h : WireHeader} {s : State} {c : FaultCode}
    (hd : DecodeInProgress s) (hc : checkSize cls h.frameSize = some c) :
    decodeArm cls crc h s = .next (faulted c s) := by
  obtain ⟨tmo, hdr, got, ha⟩ | ⟨d, ha⟩ := hd
  all_goals
    simp only [decodeArm, ha, hc]
    rfl

theorem Reads.fault_eq {s u : State} (h : Reads s u) : u.fault = s.fault := by
  rw [h.only, setReader_fault]

/-- After the size check has passed, the only fault an arm can raise is that of a socket error. -/
theorem ArmEnds.fault_of_checkSize {cls : FrameClass} {h : WireHeader} {s t : State} (e : ArmEnds cls h s t)
    (hs : checkSize cls h.frameSize = none) : t.fault = s.fault ∨ t.fault = some .socket := by
  cases e with
  | waits u _ _ _ _ hu => exact .inl hu.fault_eq
  | timeout u hu => exact .inl hu.fault_eq
  | fault u c _ _ hc =>
    obtain rfl | hc := hc
    · exact .inr rfl
    · rw [hs] at hc
      cases hc
  | underflow => exact .inl rfl
  | frame u _ hu => exact .inl hu.fault_eq

/-- An unknown kind in a decode of either mode drops the frame with the warning (R308). -/
theorem execKindUnknown_of_decodeInProgress {s : State} (hd : DecodeInProgress s) (h : WireHeader) :
    execKindUnknown h s = .next (dropUnknown h s) := by
  obtain ⟨tmo, hdr, got, ha⟩ | ⟨d, ha⟩ := hd
  all_goals simp only [execKindUnknown, ha]

/-- Two headers agree on what a decode of a defined kind reads of them under the configuration `c` (R311). -/
structure SameRead (c : Config) (h g : WireHeader) : Prop where
  size : h.frameSize = g.frameSize
  id : h.id c = g.id c
  extendedId : h.extendedId = g.extendedId
  remoteRequest : h.remoteRequest = g.remoteRequest
  bitrateSwitch : h.bitrateSwitch = g.bitrateSwitch
  errorState : h.errorState = g.errorState

namespace SameRead

variable {h g : WireHeader} {s : State} (e : SameRead s.cfg h g)

include e

theorem buildFrame_eq (cls : FrameClass) (p : Bytes) (t : Time) :
    buildFrame s.cfg cls h p t = buildFrame s.cfg cls g p t := by
  cases cls <;>
    simp only [buildFrame, e.size, e.id, e.extendedId, e.remoteRequest, e.bitrateSwitch, e.errorState]

theorem returnFrame_eq (cls : FrameClass) (p : Bytes) : returnFrame cls h p s = returnFrame cls g p s := by
  rw [returnFrame, returnFrame, e.buildFrame_eq]

/-- A read leaves the configuration, and so the agreement. -/
theorem after_read {n : Nat} {tmo : Timeout} {r : ReadEnd} {u : State} (hr : readBytes n tmo s = (r, u)) :
    SameRead u.cfg h g := by
  obtain ⟨_, _, _, _, _, hu⟩ := read_ended hr
  rw [hu]
  exact e

theorem decodeTrailer_eq (cls : FrameClass) (crc : Bool) (tmo : Timeout) (hdr p : Bytes) :
    decodeTrailer cls crc h tmo hdr p s = decodeTrailer cls crc g tmo hdr p s := by
  cases crc with
  | false => exact e.returnFrame_eq cls p
  | true =>
    rcases hr : readBytes crcBytes tmo s with ⟨r, u⟩
    cases r with
    | bytes => simpa only [decodeTrailer, hr, if_true] using (e.after_read hr).returnFrame_eq cls p
    | _ => simp only [decodeTrailer, hr, if_true]

theorem decodePayload_eq (cls : FrameClass) (crc : Bool) (tmo : Timeout) (hdr : Bytes) (got : Option Bytes) :
    decodePayload cls crc h tmo hdr got s = decodePayload cls crc g tmo hdr got s := by
  cases got with
  | some p => exact e.decodeTrailer_eq cls crc tmo hdr p
  | none =>
    rcases hr : readBytes (fetchSize cls g.frameSize) tmo s with ⟨r, u⟩
    cases r with
    | bytes p => simpa only [decodePayload, e.size, hr] using (e.after_read hr).decodeTrailer_eq cls crc tmo hdr p
    | _ => simp only [decodePayload, e.size, hr]

theorem parseBody_eq (cls : FrameClass) (crc : Bool) (d : Bytes) :
    parseBody cls crc h d s = parseBody cls crc g d s := by
  simp only [parseBody, e.size, e.returnFrame_eq]

theorem decodeArm_eq (cls : FrameClass) (crc : Bool) : decodeArm cls crc h s = decodeArm cls crc g s := by
  simp only [decodeArm, e.size, e.decodePayload_eq, e.parseBody_eq]

end SameRead

/-- An unknown kind reads the kind only, which its warning carries (R308). -/
theorem execKindUnknown_congr {h g : WireHeader} (hk : h.frameKind = g.frameKind) (s : State) :
    execKindUnknown h s = execKindUnknown g s := by
  simp only [execKindUnknown, dropUnknown, hk]

/-- Beyond the kind, which selects the arm, the dispatch reads what the arms read. -/
theorem dispatchKind_congr {h g : WireHeader} {s : State} (hk : h.frameKind = g.frameKind) (e : SameRead s.cfg h g) :
    dispatchKind h s = dispatchKind g s := by
  simp only [dispatchKind, execKindCanFrame, execKindCanFrameCrc, execKindCanFdFrame, execKindCanFdFrameCrc, hk,
    e.decodeArm_eq, execKindUnknown_congr hk]

/-- Settles O38: above the bound the size check ends the arm with its fault, and otherwise only a read can fault. -/
theorem oversizedKindsFault : Obligations.OversizedKindsFault := by
  intro i h fd crc s hk hd
  rw [exec_knownKind hk]
  have hcheck := checkSize_classOf fd h.frameSize
  refine ⟨fun hover => ?_, fun hfits t ht => ?_⟩
  · exact decodeArm_of_checkSize hd (hcheck.trans (if_pos hover))
  · exact (decodeArm_ends ht).fault_of_checkSize (hcheck.trans (if_neg (Nat.not_lt.2 hfits)))

/-- Settles O39: KIND_UNKNOWN is the last branch of the selection, and its arm makes no read. -/
theorem unknownKindWarns : Obligations.UnknownKindWarns :=
  ⟨kindInstr_eq_kindUnknown_iff, fun h _ hd => execKindUnknown_of_decodeInProgress hd h⟩

/-- Settles O42: headers that agree on the listed fields agree on what each stage of a decode reads of them. -/
theorem decoderIgnoresOtherFields : Obligations.DecoderIgnoresOtherFields := by
  intro h g s hkind hsize hflags hid
  rw [← dispatchKind_eq_exec, ← dispatchKind_eq_exec]
  exact dispatchKind_congr hkind
    { size := hsize
      id := id_eq_of_low_bits fun j hj => hid j (.inl hj)
      extendedId := hid 31 (.inr rfl)
      remoteRequest := hflags 0 (.inl rfl)
      bitrateSwitch := hflags 5 (.inr (.inl rfl))
      errorState := hflags 6 (.inr (.inr rfl)) }

end Sys2Proof.Machine
end

section
/-! SUPPORT. The bus operations (spec/44_bus.md R400 to R403): one equation per outcome of SEND and SHUTDOWN, the gate of
a closed block, and the proofs of the statements about them. -/

namespace Sys2Proof.Machine

open Sys2Proof.Stated

/-- SEND faults on a closed block, whatever its frame (R400, R403). -/
theorem execSend_of_closed {s : State} (hl : s.life = .closed) (f : CanFrame) :
    execSend f s = .next (raiseFault .closed s) := by
  simp only [execSend, hl]

/-- RECEIVE faults on a closed block, whatever its timeout (R401, R403). -/
theorem execReceive_of_closed {s : State} (hl : s.life = .closed) (tmo : Timeout) :
    execReceive tmo s = .next (raiseFault .closed s) := by
  simp only [execReceive, hl]

/-- SEND of a valid frame on an open block transmits it (R400). -/
theorem execSend_of_valid {f : CanFrame} {s : State} (hl : s.life = .opened) (hf : Valid f) :
    execSend f s = .next (transmit f s) := by
  simp only [execSend, hl, if_pos ((validForEncode_iff_valid f).2 hf)]

/-- A transmit answered `Sent` logs the frame's datagram (R400, R57). -/
theorem transmit_of_sent {s : State} {as : List TxAnswer} (ha : s.txAnswers = .sent :: as) (f : CanFrame) :
    transmit f s =
      returnOk .unit { s with txAnswers := as, txlog := s.txlog ++ [encodeDatagram s.cfg f] } := by
  simp only [transmit, ha]

/-- A transmit answered `SockErr` faults and logs nothing (R400). -/
theorem transmit_of_sockErr {s : State} {as : List TxAnswer} (ha : s.txAnswers = .sockErr :: as) (f : CanFrame) :
    transmit f s = raiseFault .socket { s with txAnswers := as } := by
  simp only [transmit, ha]

theorem closeBlock_of_opened {s : State} (hl : s.life = .opened) :
    closeBlock s = { s with life := .closed, buf := [] } := by
  simp only [closeBlock, hl]

theorem closeBlock_of_closed {s : State} (hl : s.life = .closed) : closeBlock s = s := by
  simp only [closeBlock, hl]

@[simp] theorem closeBlock_results (s : State) : (closeBlock s).results = s.results := by
  cases hl : s.life with
  | opened => rw [closeBlock_of_opened hl]
  | closed => rw [closeBlock_of_closed hl]

/-- SHUTDOWN answers Ok and leaves what closing the block leaves (R402). -/
theorem exec_shutdown (s : State) : exec .shutdown s = .next (ended (.ok .unit) (closeBlock s)) := rfl

/-- SHUTDOWN answers one `Ok(unit)` in either lifecycle state (R402). -/
theorem exec_shutdown_results (s : State) :
    ∃ t, exec .shutdown s = .next t ∧ t.results = s.results ++ [.ok .unit] :=
  ⟨_, exec_shutdown s, congrArg (· ++ [Result.ok .unit]) (closeBlock_results s)⟩

/-- Settles O22: SEND checks the lifecycle, then the frame, and then does what the oldest transmit answer says; the
datagram it logs is the spec's. -/
theorem sendTransmitsOneDatagram : Obligations.SendTransmitsOneDatagram := by
  refine fun f s as hc => ⟨fun hl => execSend_of_closed hl f, fun hl hf => execSend_of_not_valid hl hf,
    fun hl hf ha => ?_, fun hl hf ha => ?_⟩
  · rw [← encodeDatagram_eq_wireImage hc hf]
    exact (execSend_of_valid hl hf).trans (congrArg _ (transmit_of_sent ha f))
  · exact (execSend_of_valid hl hf).trans (congrArg _ (transmit_of_sockErr ha f))

/-- Settles O24: closing changes an open block only. -/
theorem shutdownClosesOnce : Obligations.ShutdownClosesOnce := by
  refine fun s => ⟨fun hl => ?_, fun hl => ?_⟩
  · rw [exec_shutdown, closeBlock_of_opened hl]
  · rw [exec_shutdown, closeBlock_of_closed hl]

/-- Settles O25: SEND and RECEIVE check the lifecycle first; SHUTDOWN answers Ok on either side of its case split, and
neither ENCODE nor an accessor reads the lifecycle. -/
theorem lifecycleGating : Obligations.LifecycleGating := by
  refine fun s => ⟨fun hl => ⟨execSend_of_closed hl, execReceive_of_closed hl⟩, exec_shutdown_results s, ?_⟩
  rintro i (⟨f, hf, rfl⟩ | ⟨hdr, h, rfl | rfl | rfl | rfl | rfl | rfl | rfl⟩)
  · exact ⟨_, execEncode_of_valid hf s⟩
  · exact ⟨_, onHeader_answers h fun _ w => .bool w.remoteRequest⟩
  · exact ⟨_, onHeader_answers h fun _ w => .bool w.fdFlagged⟩
  · exact ⟨_, onHeader_answers h fun _ w => .bool w.bitrateSwitch⟩
  · exact ⟨_, onHeader_answers h fun _ w => .bool w.errorState⟩
  · exact ⟨_, onHeader_answers h fun _ w => .bool w.extendedId⟩
  · exact ⟨_, onHeader_answers h fun c w => .word (w.id c)⟩
  · exact ⟨_, onHeader_answers h fun c w => .text (summaryText c w)⟩

end Sys2Proof.Machine
end

section
/-! SUPPORT. The header record and its image (spec/40_header.md R200 to R203, spec/30_encoding.md R150): slices that
meet join, a field reads back as it was packed, and the proofs of the statements about the packer. -/

namespace Sys2Proof

theorem slice_append_slice (B : Bytes) {i j k : Nat} (hij : i ≤ j) (hjk : j ≤ k) :
    slice B i j ++ slice B j k = slice B i k := by
  obtain ⟨m, rfl⟩ := Nat.exists_eq_add_of_le hij
  have hmid : slice B (i + m) k = (slice B i k).drop m := by simp [slice, List.drop_drop]
  have hpre : slice B i (i + m) = (slice B i k).take m := by
    rw [slice, slice, List.drop_take, List.drop_take, List.take_take]
    congr 1
    omega
  rw [hmid, hpre, List.take_append_drop]

theorem slice_all (B : Bytes) {j : Nat} (hj : B.length ≤ j) : slice B 0 j = B := by
  rw [slice_zero, List.take_of_length_le hj]

/-- A field of `n` bytes that fits its width reads back as it was written. -/
theorem ofNat_fromBe_be (n : Nat) (v : BitVec (8 * n)) : BitVec.ofNat (8 * n) (fromBe (be n v.toNat)) = v := by
  rw [fromBe_be n v.toNat (by simpa only [Nat.pow_mul] using v.isLt), BitVec.ofNat_toNat, BitVec.setWidth_eq]

/-- A field of `n` bytes read from a sequence is written as the bytes it was read from. -/
theorem be_ofNat_memRead {B : Bytes} (off n : Nat) (h : off + n ≤ B.length) :
    be n (BitVec.ofNat (8 * n) (memRead B off n)).toNat = slice B off (off + n) := by
  rw [BitVec.toNat_ofNat, Nat.mod_eq_of_lt (by simpa only [Nat.pow_mul] using memRead_lt B off n), be_memRead B off n h]

/-- Unpacking the nine packed fields gives the record back (R203). -/
theorem unpackHeader_packHeader {c : Config} {h : WireHeader} (ht : h.reservedTag < 256 ^ c.tagBytes) :
    unpackHeader c (packHeader c h) = h := by
  rw [packHeader_eq, headerBytes, unpackHeader_fields c _ _ _ _ _ _ _ _ _ (be_length ..) (be_length ..) (be_length ..)
    (be_length ..) (be_length ..) (be_length ..) (be_length ..) (be_length ..) (be_length ..), fromBe_be _ _ ht]
  congr 1
  · exact ofNat_fromBe_be 2 h.packetSize
  · exact ofNat_fromBe_be 2 h.frameKind
  · exact ofNat_fromBe_be 4 h.timestampLow
  · exact ofNat_fromBe_be 4 h.timestampHigh
  · exact ofNat_fromBe_be 1 h.channel
  · exact ofNat_fromBe_be 1 h.frameSize
  · exact ofNat_fromBe_be 2 h.frameFlags
  · exact ofNat_fromBe_be 4 h.frameIdRaw

/-- Packing the nine fields of an image writes the slices they were read from, and the slices join (R203). -/
theorem packHeader_unpackHeader {c : Config} {B : Bytes} (hB : B.length = c.hdrBytes) :
    packHeader c (unpackHeader c B) = B := by
  have hlen : B.length = 20 + c.tagBytes := hB
  have field {off n j : Nat} (hj : off + n = j) (hle : j ≤ 20 + c.tagBytes) :
      be n (BitVec.ofNat (8 * n) (memRead B off n)).toNat = slice B off j := by
    subst hj
    exact be_ofNat_memRead off n (hlen ▸ hle)
  have hsize : be 2 (unpackHeader c B).packetSize.toNat = slice B 0 2 := field rfl (by omega)
  have hkind : be 2 (unpackHeader c B).frameKind.toNat = slice B 2 4 := field rfl (by omega)
  have htag : be c.tagBytes (unpackHeader c B).reservedTag = slice B 4 (4 + c.tagBytes) :=
    be_memRead B 4 c.tagBytes (by omega)
  have hlow : be 4 (unpackHeader c B).timestampLow.toNat = slice B (4 + c.tagBytes) (8 + c.tagBytes) :=
    field (by simp only [Config.offTsLow]; omega) (by omega)
  have hhigh : be 4 (unpackHeader c B).timestampHigh.toNat = slice B (8 + c.tagBytes) (12 + c.tagBytes) :=
    field (by simp only [Config.offTsHigh]; omega) (by omega)
  have hchannel : be 1 (unpackHeader c B).channel.toNat = slice B (12 + c.tagBytes) (13 + c.tagBytes) :=
    field (by simp only [Config.offChannel]; omega) (by omega)
  have hframeSize : be 1 (unpackHeader c B).frameSize.toNat = slice B (13 + c.tagBytes) (14 + c.tagBytes) :=
    field (by simp only [Config.offSize]; omega) (by omega)
  have hflags : be 2 (unpackHeader c B).frameFlags.toNat = slice B (14 + c.tagBytes) (16 + c.tagBytes) :=
    field (by simp only [Config.offFlags]; omega) (by omega)
  have hid : be 4 (unpackHeader c B).frameIdRaw.toNat = slice B (16 + c.tagBytes) (20 + c.tagBytes) :=
    field (by simp only [Config.offId]; omega) (by omega)
  rw [packHeader_eq, headerBytes, hsize, hkind, htag, hlow, hhigh, hchannel, hframeSize, hflags, hid]
  repeat rw [slice_append_slice B (by omega) (by omega)]
  exact slice_all B hlen.le

/-- Settles O6: each field reads back as it was packed, and packs as the slice it was read from. -/
theorem packUnpackInverse : Obligations.PackUnpackInverse :=
  ⟨fun _ _ => unpackHeader_packHeader, fun _ _ => packHeader_unpackHeader⟩

/-- Settles O7: the nine writes of R201 join the nine fields. -/
theorem headerFieldsInTableOrder : Obligations.HeaderFieldsInTableOrder := by
  intro c h
  refine ⟨?_, packHeader_length c h⟩
  rw [packHeader_eq, headerBytes, be_one, be_one]

end Sys2Proof
end

section
/-! SUPPORT. The two decoders against the encoder (spec/30_encoding.md R150, R160, R180 to R187): which instructions
each space spells, and the proofs of the round trips. -/

namespace Sys2Proof

open Sys2Proof.Stated

/-- A command is well formed as ILLEGAL exactly when the opcode map leaves it out (R185). -/
theorem illegalOk_iff (cmd : Bytes) : illegalOk cmd = true ↔ cmd = [] ∨ IllegalOpcode (byteAt cmd 0) := by
  match cmd with
  | [] => simp [illegalOk]
  | op :: rest =>
    have hmap : ∀ b : Byte, (!opcodes.contains b) = true ↔ opcodeOf b = none := by decide
    rw [illegalOk, hmap, opcodeOf_eq_none_iff, byteAt_cons_zero]
    simp

/-- The instruction a kind selects is well formed, is a wire instruction, and is spelled by the packed header. -/
theorem kindInstr_spelled {c : Config} {h : WireHeader} (ht : h.tagFits c = true) :
    (kindInstr h).wellFormed c = true ∧ (kindInstr h).space = .wire ∧ encode c (kindInstr h) = packHeader c h := by
  unfold kindInstr
  split_ifs with h80 h81 h90 h91
  · exact ⟨by simp [Instr.wellFormed, ht, h80], rfl, rfl⟩
  · exact ⟨by simp [Instr.wellFormed, ht, h81], rfl, rfl⟩
  · exact ⟨by simp [Instr.wellFormed, ht, h90], rfl, rfl⟩
  · exact ⟨by simp [Instr.wellFormed, ht, h91], rfl, rfl⟩
  · exact ⟨by simp [Instr.wellFormed, kindClass, ht, h80, h81, h90, h91], rfl, rfl⟩

/-- Every well-formed wire instruction is selected by the kind of a header whose tag fits (R160). -/
theorem exists_kindInstr {c : Config} {i : Instr} (hw : i.wellFormed c = true) (hs : i.space = .wire) :
    ∃ h : WireHeader, h.tagFits c = true ∧ i = kindInstr h := by
  cases i with
  | kindCanFrame h | kindCanFrameCrc h | kindCanFdFrame h | kindCanFdFrameCrc h =>
    obtain ⟨ht, hk⟩ := (Bool.and_eq_true _ _).mp hw
    exact ⟨h, ht, by simp [kindInstr, beq_iff_eq.mp hk]⟩
  | kindUnknown h =>
    obtain ⟨ht, hk⟩ := (Bool.and_eq_true _ _).mp hw
    refine ⟨h, ht, ?_⟩
    unfold kindClass at hk
    unfold kindInstr
    split_ifs at hk ⊢ <;> trivial
  | _ => cases hs

/-- The packed header of a record whose tag fits decodes to the instruction its kind selects. -/
theorem decode_packHeader {c : Config} {h : WireHeader} (ht : h.tagFits c = true) :
    decode c .wire (packHeader c h) = .ok (kindInstr h) := by
  have hlt : h.reservedTag < 256 ^ c.tagBytes := by simpa [WireHeader.tagFits] using ht
  rw [decode, decodeHeader, if_pos (packHeader_length c h), unpackHeader_packHeader hlt]

/-- The command decoder reads back what the encoder writes. -/
theorem decode_encode_command {c : Config} {i : Instr} (hw : i.wellFormed c = true) (hs : i.space = .command) :
    decode c .command (encode c i) = .ok i := by
  have image {hdr : Bytes} (h : imageOk c hdr = true) : hdr.length = c.hdrBytes := by simpa [imageOk] using h
  cases i with
  | encode f =>
    refine (decode_opcode_eq_ok_iff c .encode _ _).2 ?_
    rw [decodeOperands, decodeFrame_encodeFrame f hw]
    rfl
  | send f =>
    refine (decode_opcode_eq_ok_iff c .send _ _).2 ?_
    rw [decodeOperands, decodeFrame_encodeFrame f hw]
    rfl
  | receive tmo => cases tmo <;> rfl
  | shutdown => rfl
  | isRemoteRequest hdr => exact decode_image (image hw) .isRemoteRequest rfl
  | isFdFlagged hdr => exact decode_image (image hw) .isFdFlagged rfl
  | isBitrateSwitch hdr => exact decode_image (image hw) .isBitrateSwitch rfl
  | isErrorState hdr => exact decode_image (image hw) .isErrorState rfl
  | isExtendedId hdr => exact decode_image (image hw) .isExtendedId rfl
  | getId hdr => exact decode_image (image hw) .getId rfl
  | summary hdr => exact decode_image (image hw) .summary rfl
  | illegal cmd => exact (decode_eq_illegal_iff c cmd).2 ((illegalOk_iff cmd).1 hw)
  | _ => cases hs

/-- Settles O2: a command reads back by its format, a wire instruction by its packed header. -/
theorem decodeOfEncode : Obligations.DecodeOfEncode := by
  intro c i hw
  cases hs : i.space with
  | command => exact decode_encode_command hw hs
  | wire =>
    obtain ⟨h, ht, rfl⟩ := exists_kindInstr hw hs
    obtain ⟨-, -, he⟩ := kindInstr_spelled ht
    rw [he, decode_packHeader ht]

theorem decodeImage_eq_some {c : Config} {rest hdr : Bytes} (h : decodeImage c rest = some hdr) :
    imageOk c rest = true ∧ hdr = rest := by
  unfold decodeImage at h
  split at h
  next hl => cases h; exact ⟨by simp [imageOk, hl], rfl⟩
  next => cases h

theorem decodeTimeout_eq_some {rest : Bytes} {tmo : Timeout} (h : decodeTimeout rest = some tmo) :
    rest = [tmo.byte] := by
  unfold decodeTimeout at h
  split at h
  next t =>
    split_ifs at h with h0 h1
    · cases h; rw [h0]; rfl
    · cases h; rw [h1]; rfl
  next => cases h

theorem decodeNone_eq_some {rest : Bytes} {u : Unit} (h : decodeNone rest = some u) : rest = [] := by
  cases rest with
  | nil => rfl
  | cons => cases h

/-- Operands that decode are those of a well-formed command of their opcode, which the encoder writes. -/
theorem encode_of_decodeOperands {c : Config} {rest : Bytes} {o : Opcode} {i : Instr}
    (h : decodeOperands c rest o = some i) :
    i.wellFormed c = true ∧ i.space = .command ∧ encode c i = o.byte :: rest := by
  cases o with
  | encode | send =>
    obtain ⟨f, hf, rfl⟩ := Option.map_eq_some_iff.1 h
    obtain ⟨hd, rfl⟩ := encodeFrame_of_decodeFrame hf
    exact ⟨hd, rfl, rfl⟩
  | receive =>
    obtain ⟨tmo, ht, rfl⟩ := Option.map_eq_some_iff.1 h
    rw [decodeTimeout_eq_some ht]
    exact ⟨rfl, rfl, rfl⟩
  | shutdown =>
    obtain ⟨u, hu, rfl⟩ := Option.map_eq_some_iff.1 h
    rw [decodeNone_eq_some hu]
    exact ⟨rfl, rfl, rfl⟩
  | isRemoteRequest | isFdFlagged | isBitrateSwitch | isErrorState | isExtendedId | getId | summary =>
    obtain ⟨hdr, hd, rfl⟩ := Option.map_eq_some_iff.1 h
    obtain ⟨hl, rfl⟩ := decodeImage_eq_some hd
    exact ⟨hl, rfl, rfl⟩

/-- What the command decoder accepts is what the encoder writes. -/
theorem encode_of_decode_command {c : Config} {cmd : Bytes} {i : Instr} (h : decode c .command cmd = .ok i) :
    i.wellFormed c = true ∧ i.space = .command ∧ encode c i = cmd := by
  match cmd with
  | [] => cases h; exact ⟨rfl, rfl, rfl⟩
  | op :: rest =>
    by_cases hop : IllegalOpcode op
    · obtain rfl := Except.ok.inj ((decode_illegal c rest hop).symm.trans h)
      exact ⟨(illegalOk_iff (op :: rest)).2 (.inr hop), rfl, rfl⟩
    · obtain ⟨o, rfl⟩ := exists_opcode_byte hop
      exact encode_of_decodeOperands ((decode_opcode_eq_ok_iff c o rest i).1 h)

/-- Settles O3: an accepted command is its opcode and operands, an accepted image the packing of what it unpacks to. -/
theorem encodeOfDecode : Obligations.EncodeOfDecode := by
  intro c sp bytes i h
  cases sp with
  | command => exact encode_of_decode_command h
  | wire =>
    obtain ⟨hl, rfl⟩ := Machine.decode_wire h
    have ht : (unpackHeader c bytes).tagFits c = true := decide_eq_true (memRead_lt bytes 4 c.tagBytes)
    obtain ⟨hw, hs, he⟩ := kindInstr_spelled ht
    exact ⟨hw, hs, he.trans (packHeader_unpackHeader hl)⟩

/-- Settles O1: each word is decoded by its format. -/
theorem writtenWordsDecode : Obligations.WrittenWordsDecode := by
  refine ⟨?_, ?_, ?_, ?_, ?_, ?_, ?_⟩ <;> decide

/-- The descriptor an assembler line writes is that of the frame it spells (R187, R181). -/
theorem assembleFrame_eq_encodeFrame (f : CanFrame) (data : Option Bytes) (fl : Option (List FlagName))
    (hd : f.data = data.getD []) (hx : f.extendedId = decide (.ext ∈ fl.getD []))
    (hr : f.remoteFrame = decide (.rtr ∈ fl.getD [])) (he : f.errorFrame = decide (.err ∈ fl.getD []))
    (hf : f.isFd = decide (.fd ∈ fl.getD [])) (hb : f.bitrateSwitch = decide (.brs ∈ fl.getD [])) :
    assembleFrame f.arbitrationId f.dlc data fl = encodeFrame f := by
  obtain ⟨hlt, h0, h1, h2, h3, h4⟩ := flagSet_bits (fl.getD [])
  have hbyte := flagByte_of_bits _ hlt
  rw [h0, h1, h2, h3, h4, ← hx, ← hr, ← he, ← hf, ← hb] at hbyte
  rw [assembleFrame, encodeFrame, ← hd, ← hbyte]
  rfl

/-- Settles O8: the line's descriptor is the encoder's, so it reads back. -/
theorem assembledFrameDecodes : Obligations.AssembledFrameDecodes := by
  intro c id dlc data fl hl f
  have hframe : assembleFrame id dlc data fl = encodeFrame f :=
    assembleFrame_eq_encodeFrame f data fl rfl rfl rfl rfl rfl rfl
  have hd : f.describable = true := by simp [CanFrame.describable, f, hl]
  rw [assemble, assemble, hframe]
  exact ⟨decodeOfEncode c (.encode f) hd, decodeOfEncode c (.send f) hd⟩

end Sys2Proof
end

section
/-! SUPPORT. READ by outcome (spec/43_reader.md R350 to R357): one equation per answer, what a READ makes of bytes
that are buffered or still in datagrams, and the proofs of the statements about it. -/

namespace Sys2Proof.Machine

open Sys2Proof.Stated

section lacking

variable {n : Nat} {tmo : Timeout} {s : State} (hl : s.buf.length < n)

include hl

/-- A READ that lacks bytes gives up on a timeout and keeps every byte (R350). -/
theorem readBytes_timedOut {as : List RxAnswer} (ha : s.rxAnswers = .timedOut :: as) (ht : tmo = .finite) :
    readBytes n tmo s = (.timedOut, setReader s.buf as s) := by
  simp [readBytes, readLoop, ha, ht, admits, Nat.not_le_of_lt hl]

/-- A READ that lacks bytes reports a socket error (R350). -/
theorem readBytes_sockErr {as : List RxAnswer} (ha : s.rxAnswers = .sockErr :: as) :
    readBytes n tmo s = (.sockErr, setReader s.buf as s) := by
  cases tmo <;> simp [readBytes, readLoop, ha, admits, Nat.not_le_of_lt hl]

/-- A READ that lacks bytes blocks while no answer is given, and `TimedOut` is not given under NONE (R351). -/
theorem readBytes_waiting (ha : s.rxAnswers = [] ∨ (tmo = .none ∧ s.rxAnswers.head? = some .timedOut)) :
    readBytes n tmo s = (.waiting, s) := by
  suffices hloop : readLoop n s.cfg.chunkBytes tmo s.buf s.rxAnswers = (.waiting, s.buf, s.rxAnswers) by
    rw [readBytes, hloop]
    rfl
  obtain ha | ⟨rfl, ha⟩ := ha
  · rw [ha]
    simp [readLoop, Nat.not_le_of_lt hl]
  · obtain ⟨as, ha⟩ := List.head?_eq_some_iff.1 ha
    rw [ha]
    simp [readLoop, admits, Nat.not_le_of_lt hl]

end lacking

/-- Settles O26: one equation per way the buffer and the oldest answer stand. -/
theorem readTakesOrReceives : Obligations.ReadTakesOrReceives := fun n tmo s =>
  ⟨read_buffered n tmo s, fun hl _ => ⟨fun _ => readBytes_receive hl, readBytes_timedOut hl, readBytes_sockErr hl⟩⟩

/-- Settles O27: of the ways a READ can end, only success answers bytes. -/
theorem readConservesBytes : Obligations.ReadConservesBytes := by
  intro n tmo s t out h
  obtain ⟨ds, rest, ha, hneed, he, ht⟩ := read_ended h
  generalize t.buf = buf at he ht ⊢
  generalize t.rxAnswers = answers at he ht
  cases he with
  | bytes _ _ hlen hall => exact ⟨ds, rest, ha, ht, hlen, hall, hneed⟩

/-- Settles O28: no byte is lacking. -/
theorem readZeroReturnsAtOnce : Obligations.ReadZeroReturnsAtOnce := fun tmo s =>
  read_buffered 0 tmo s (Nat.zero_le _)

/-! ## Bytes that are buffered or still to be received -/

/-- The bytes `bs` are there to read: buffered, or in the datagrams `ds`; the answers `rest` come after these. -/
structure Pending (s : State) (ds : List Bytes) (rest : List RxAnswer) (bs : Bytes) : Prop where
  answers : s.rxAnswers = ds.map .dgram ++ rest
  bytes : s.buf ++ chunks s.cfg.chunkBytes ds = bs

/-- `t` differs from `s` in the buffer and the receive answers at most. -/
def SameButReader (s t : State) : Prop := t = setReader t.buf t.rxAnswers s

theorem SameButReader.refl (s : State) : SameButReader s s := rfl

theorem SameButReader.trans {s t u : State} (h : SameButReader s t) (k : SameButReader t u) : SameButReader s u := by
  unfold SameButReader at *
  rw [k, h]
  rfl

theorem SameButReader.cfg_eq {s t : State} (h : SameButReader s t) : t.cfg = s.cfg := by
  rw [h, setReader_cfg]

theorem chunks_append (n : Nat) (ds es : List Bytes) : chunks n (ds ++ es) = chunks n ds ++ chunks n es := by
  simp [chunks]

/-- What is buffered is there to read. -/
theorem Pending.buffered (s : State) : Pending s [] s.rxAnswers s.buf :=
  ⟨rfl, List.append_nil _⟩

theorem suffix_of_map_append_suffix {ds es : List Bytes} {rest : List RxAnswer}
    (h : es.map .dgram ++ rest <:+ ds.map .dgram ++ rest) : es <:+ ds := by
  obtain ⟨front, hfront⟩ := h
  rw [← List.append_assoc] at hfront
  obtain ⟨l, r, hds, -, hr⟩ := List.map_eq_append_iff.1 (List.append_cancel_right hfront).symm
  have hinj : Function.Injective RxAnswer.dgram := fun _ _ => RxAnswer.dgram.inj
  exact ⟨l, by rw [hds, hinj.list_map hr]⟩

/-- A READ that is satisfied takes its bytes and leaves the others to read (R350, R352). -/
theorem Pending.read {n : Nat} {s : State} {ds : List Bytes} {rest : List RxAnswer} {p left : Bytes}
    (h : Pending s ds rest (p ++ left)) (hp : p.length = n) (tmo : Timeout) :
    ∃ t es, readBytes n tmo s = (.bytes p, t) ∧ SameButReader s t ∧ es <:+ ds ∧ Pending t es rest left := by
  obtain ⟨buf, es, hleft, hr⟩ := readBytes_satisfied n tmo s ds rest p left h.answers hp h.bytes
  refine ⟨_, es, hr, rfl, suffix_of_map_append_suffix (rest := rest) ?_, ⟨rfl, hleft⟩⟩
  obtain ⟨es', rest', ha, -, he, -⟩ := read_ended hr
  rw [← h.answers, ha]
  cases he with
  | bytes => exact List.suffix_append _ _

/-- When the last datagram holds more than the bytes left to read, all of them have been received. -/
theorem Pending.eq_setReader {s t : State} {ds es : List Bytes} {rest : List RxAnswer} {left : Bytes}
    (h : Pending t es rest left) (hs : SameButReader s t) (hsuf : es <:+ ds)
    (hlast : ∀ d, ds.getLast? = some d → left.length < (d.take s.cfg.chunkBytes).length) :
    t = setReader left rest s := by
  obtain ⟨front, rfl⟩ := hsuf
  cases es using List.reverseRecOn with
  | nil =>
    obtain rfl : t.buf = left := (List.append_nil _).symm.trans h.bytes
    rw [hs, h.answers]
    rfl
  | append_singleton es d =>
    have hlt := hlast d (by simp)
    have hlen := congrArg List.length h.bytes
    simp only [chunks_append, chunks_cons, chunks_nil, hs.cfg_eq, List.length_append, List.length_nil] at hlen
    omega

/-- How a stage of a decode stops when its READ returns no bytes (R301); it waits with the record `wait`. -/
def stopped (wait : Activity) : ReadEnd → State → State
  | .bytes _, s => s
  | .timedOut, s => returnNoFrame .timeout s
  | .sockErr, s => raiseFault .socket s
  | .waiting, s => suspend wait s

/-- An instruction that stops with a READ is cut short when fewer bytes are there to read than it wants. -/
theorem Pending.cutShort {i : Instr} {n : Nat} {tmo : Timeout} {s t : State} {ds : List Bytes} {rest : List RxAnswer}
    {bs : Bytes} {wait : Activity} (h : Pending t ds rest bs) (hs : SameButReader s t) (hl : bs.length < n)
    (hx : ∀ e u, (∀ out, e ≠ .bytes out) → readBytes n tmo t = (e, u) → exec i s = .next (stopped wait e u)) :
    CutShort i tmo s bs rest wait := by
  obtain ⟨ha, rfl⟩ := h
  have hr := readBytes_receives n tmo t ds rest ha hl
  rw [hs] at hx hr hl ⊢
  refine ⟨fun as htmo hrest => ?_, fun as hrest => ?_, fun hrest => ?_⟩
  · exact hx .timedOut _ nofun (hr.trans (readBytes_timedOut hl hrest htmo))
  · exact hx .sockErr _ nofun (hr.trans (readBytes_sockErr hl hrest))
  · exact hx .waiting _ nofun (hr.trans (readBytes_waiting hl hrest))

end Sys2Proof.Machine
end

section
/-! SUPPORT. The stages of a decode (spec/42_decoder.md R300 to R312): one equation per way a stage goes on or stops,
the frame it builds in the spec's own words, and the proofs of the statements about the frame kinds. -/

namespace Sys2Proof.Machine

open Sys2Proof.Stated

/-! ## The frame -/

/-- The masked id as a remainder modulo `2^ID_BITS` (R209, R307). -/
theorem id_eq_ofNat_mod {c : Config} (hc : c.Legal) (h : WireHeader) :
    h.id c = BitVec.ofNat 32 (h.frameIdRaw.toNat % 2 ^ c.idBits) := by
  rw [← id_toNat c h hc, BitVec.ofNat_toNat, BitVec.setWidth_eq]

/-- The frame of R305 to R307, by class. -/
theorem buildFrame_eq_frameOfHeader {c : Config} (hc : c.Legal) (fd : Bool) (h : WireHeader) (p : Bytes) (t : Time) :
    buildFrame c (classOf fd) h p t = frameOfHeader c fd h p t := by
  cases fd <;> simp only [classOf, buildFrame, frameOfHeader, id_eq_ofNat_mod hc, slice_zero] <;> rfl

/-- A decode that is complete, whatever it has read, answers its frame and makes one time draw (R309). -/
theorem returnFrame_eq_framed {s t : State} (hs : SameButReader s t) (hc : s.cfg.Legal) (fd : Bool) (h : WireHeader)
    (p : Bytes) :
    returnFrame (classOf fd) h p t = framed (frameOfHeader s.cfg fd h p (Config.timeDraw s.timeDraws)) t := by
  rw [← buildFrame_eq_frameOfHeader hc, hs]
  rfl

theorem fetchSize_classOf (fd : Bool) (h : WireHeader) : fetchSize (classOf fd) h.frameSize = payloadLength fd h := by
  cases fd <;> rfl

/-- A `frame_size` within the class's bound passes the size check (R310). -/
theorem checkSize_of_le_maxSize {fd : Bool} {F : Byte} (hF : F.toNat ≤ maxSize fd) :
    checkSize (classOf fd) F = none := by
  rw [checkSize_classOf, if_neg (Nat.not_lt.2 hF)]

/-! ## The stages -/

section stages

variable {cls : FrameClass} {crc : Bool} {h : WireHeader} {tmo : Timeout} {hdr p : Bytes} {got : Option Bytes}
  {s t : State}

/-- A STREAM_LOOP decode whose size check passes goes on with its payload stage (R301). -/
theorem decodeArm_of_decoding (ha : s.activity = .decoding tmo hdr got) (hsize : checkSize cls h.frameSize = none) :
    decodeArm cls crc h s = .next (decodePayload cls crc h tmo hdr got s) := by
  simp only [decodeArm, ha, hsize]

/-- A DATAGRAM_ATOMIC decode whose size check passes parses its datagram (R302). -/
theorem decodeArm_of_parsing {d : Bytes} (ha : s.activity = .parsing d) (hsize : checkSize cls h.frameSize = none) :
    decodeArm cls crc h s = .next (parseBody cls crc h d s) := by
  simp only [decodeArm, ha, hsize]

theorem decodePayload_of_read (hr : readBytes (fetchSize cls h.frameSize) tmo s = (.bytes p, t)) :
    decodePayload cls crc h tmo hdr none s = decodeTrailer cls crc h tmo hdr p t := by
  simp only [decodePayload, hr]

theorem decodePayload_of_stop {e : ReadEnd} (he : ∀ out, e ≠ .bytes out)
    (hr : readBytes (fetchSize cls h.frameSize) tmo s = (e, t)) :
    decodePayload cls crc h tmo hdr none s = stopped (.decoding tmo hdr none) e t := by
  cases e with
  | bytes out => exact absurd rfl (he out)
  | _ => simp only [decodePayload, hr, stopped]

theorem decodeTrailer_of_read {out : Bytes} (hr : readBytes crcBytes tmo s = (.bytes out, t)) :
    decodeTrailer cls true h tmo hdr p s = returnFrame cls h p t := by
  simp only [decodeTrailer, hr, if_true]

theorem decodeTrailer_of_stop {e : ReadEnd} (he : ∀ out, e ≠ .bytes out) (hr : readBytes crcBytes tmo s = (e, t)) :
    decodeTrailer cls true h tmo hdr p s = stopped (.decoding tmo hdr (some p)) e t := by
  cases e with
  | bytes out => exact absurd rfl (he out)
  | _ => simp only [decodeTrailer, hr, if_true, stopped]

/-! When the bytes of a stage are there to read, it takes them, and the decode returns its frame. -/

variable {ds : List Bytes} {rest : List RxAnswer} {trailer left : Bytes}

theorem Pending.decodeTrailer (hp : Pending s ds rest (trailer ++ left))
    (ht : trailer.length = if crc = true then 4 else 0) (cls : FrameClass) (h : WireHeader) (tmo : Timeout)
    (hdr p : Bytes) :
    ∃ t es, decodeTrailer cls crc h tmo hdr p s = returnFrame cls h p t ∧ SameButReader s t ∧ es <:+ ds ∧
      Pending t es rest left := by
  cases crc with
  | false =>
    obtain rfl : trailer = [] := List.length_eq_zero_iff.1 ht
    exact ⟨s, ds, rfl, .refl s, List.suffix_refl ds, hp⟩
  | true =>
    obtain ⟨t, es, hr, hs, hsuf, hleft⟩ := hp.read (n := crcBytes) ht tmo
    exact ⟨t, es, decodeTrailer_of_read hr, hs, hsuf, hleft⟩

theorem Pending.decodePayload (hp : Pending s ds rest (p ++ trailer ++ left))
    (hl : p.length = fetchSize cls h.frameSize) (ht : trailer.length = if crc = true then 4 else 0) (tmo : Timeout)
    (hdr : Bytes) :
    ∃ t es, decodePayload cls crc h tmo hdr none s = returnFrame cls h p t ∧ SameButReader s t ∧ es <:+ ds ∧
      Pending t es rest left := by
  rw [List.append_assoc] at hp
  obtain ⟨u, fs, hr, hu, hfs, hleft⟩ := hp.read hl tmo
  obtain ⟨t, es, hx, hs, hes, hend⟩ := hleft.decodeTrailer ht cls h tmo hdr p
  exact ⟨t, es, (decodePayload_of_read hr).trans hx, hu.trans hs, hes.trans hfs, hend⟩

end stages

/-! ## The kinds as instructions -/

section kinds

variable {i : Instr} {h : WireHeader} {fd crc : Bool} (hk : KnownKind i h fd crc) {s : State}

include hk

/-- A defined kind in a STREAM_LOOP decode whose payload and trailer are there to read returns its frame (R301). -/
theorem exec_kind_of_pending {tmo : Timeout} {hdr p trailer left : Bytes} {ds : List Bytes} {rest : List RxAnswer}
    (hc : s.cfg.Legal) (hF : h.frameSize.toNat ≤ maxSize fd) (hp : p.length = payloadLength fd h)
    (ht : trailer.length = if crc = true then 4 else 0) (ha : s.activity = .decoding tmo hdr none)
    (hpend : Pending s ds rest (p ++ trailer ++ left)) :
    ∃ t es, exec i s = .next (framed (frameOfHeader s.cfg fd h p (Config.timeDraw s.timeDraws)) t) ∧
      SameButReader s t ∧ es <:+ ds ∧ Pending t es rest left := by
  obtain ⟨t, es, hx, hs, hes, hend⟩ := hpend.decodePayload (hp.trans (fetchSize_classOf fd h).symm) ht tmo hdr
  rw [exec_knownKind hk, decodeArm_of_decoding ha (checkSize_of_le_maxSize hF), hx, returnFrame_eq_framed hs hc]
  exact ⟨t, es, rfl, hs, hes, hend⟩

/-- A defined kind in a DATAGRAM_ATOMIC decode of a datagram that holds its frame returns it (R302). -/
theorem exec_kind_of_parsing {d : Bytes} (hc : s.cfg.Legal) (hF : h.frameSize.toNat ≤ maxSize fd)
    (ha : s.activity = .parsing d)
    (hd : s.cfg.hdrBytes + payloadLength fd h + (if crc = true then 4 else 0) ≤ d.length) :
    exec i s = .next (framed (frameOfHeader s.cfg fd h ((d.drop s.cfg.hdrBytes).take (payloadLength fd h))
      (Config.timeDraw s.timeDraws)) s) := by
  rw [exec_knownKind hk, decodeArm_of_parsing ha (checkSize_of_le_maxSize hF), parseBody, fetchSize_classOf,
    crcBytes, if_neg (Nat.not_lt.2 hd), returnFrame_eq_framed (.refl s) hc, slice, List.drop_take,
    Nat.add_sub_cancel_left]

/-- A defined kind in a DATAGRAM_ATOMIC decode of a shorter datagram warns of an underflow (R302). -/
theorem exec_kind_of_underflow {d : Bytes} (hF : h.frameSize.toNat ≤ maxSize fd) (ha : s.activity = .parsing d)
    (hd : d.length < s.cfg.hdrBytes + payloadLength fd h + if crc = true then 4 else 0) :
    exec i s = .next (returnNoFrame .underflow
      (warn (.underflow d.length (s.cfg.hdrBytes + payloadLength fd h + if crc = true then 4 else 0)) s)) := by
  rw [exec_knownKind hk, decodeArm_of_parsing ha (checkSize_of_le_maxSize hF), parseBody, fetchSize_classOf]
  exact congrArg _ (if_pos hd)

/-- A defined kind in a STREAM_LOOP decode whose payload is not all there to read is cut short in its payload READ. -/
theorem exec_kind_cutShort {tmo : Timeout} {hdr bs : Bytes} {ds : List Bytes} {rest : List RxAnswer}
    (hF : h.frameSize.toNat ≤ maxSize fd) (ha : s.activity = .decoding tmo hdr none) (hpend : Pending s ds rest bs)
    (hl : bs.length < payloadLength fd h) : CutShort i tmo s bs rest (.decoding tmo hdr none) := by
  rw [← fetchSize_classOf] at hl
  refine hpend.cutShort (.refl s) hl fun e u he hr => ?_
  rw [exec_knownKind hk, decodeArm_of_decoding ha (checkSize_of_le_maxSize hF), decodePayload_of_stop he hr]

end kinds

/-- Settles O36: the bytes are buffered, so the stages read them without a receive. -/
theorem kindsCompleteInStreamDecode : Obligations.KindsCompleteInStreamDecode := by
  intro i h fd crc tmo hdr p trailer rest s hc hk hF hp ht
  refine ⟨fun ha hbuf => ?_, fun ha hbuf => ?_⟩
  · obtain ⟨t, es, hx, hs, hes, hend⟩ := exec_kind_of_pending hk hc hF hp ht ha (hbuf ▸ Pending.buffered s)
    rw [hx, hend.eq_setReader hs hes (by simp)]
    rfl
  · obtain ⟨t, es, hx, hs, hes, hend⟩ :=
      (hbuf ▸ Pending.buffered s).decodeTrailer ht (classOf fd) h tmo hdr p
    rw [exec_knownKind hk, decodeArm_of_decoding ha (checkSize_of_le_maxSize hF), decodePayload, hx,
      returnFrame_eq_framed hs hc, hend.eq_setReader hs hes (by simp)]
    rfl

/-- Settles O37: the datagram is parsed on its own, and its length decides. -/
theorem kindsCompleteInAtomicDecode : Obligations.KindsCompleteInAtomicDecode :=
  fun _ _ _ _ _ _ hc hk hF ha => ⟨exec_kind_of_parsing hk hc hF ha, exec_kind_of_underflow hk hF ha⟩

/-- Settles O53: the payload read or, once the payload is read, the trailer read is the one that stops. -/
theorem streamDecodeCutShort : Obligations.StreamDecodeCutShort := by
  intro i h fd crc tmo hdr p s ds rest hk hF ha all
  have hpend : Pending s ds rest all := ⟨ha, rfl⟩
  have harm {got : Option Bytes} (hact : s.activity = .decoding tmo hdr got) :
      exec i s = .next (decodePayload (classOf fd) crc h tmo hdr got s) := by
    rw [exec_knownKind hk, decodeArm_of_decoding hact (checkSize_of_le_maxSize hF)]
  refine ⟨fun hact hl => exec_kind_cutShort hk hF hact hpend hl, ?_, ?_⟩
  · rintro rfl hact hp part hall hl
    rw [hall] at hpend
    obtain ⟨t, es, hr, hs, -, hleft⟩ := hpend.read (hp.trans (fetchSize_classOf fd h).symm) tmo
    exact hleft.cutShort (n := crcBytes) hs hl fun e u he hr' => by
      rw [harm hact, decodePayload_of_read hr, decodeTrailer_of_stop he hr']
  · rintro rfl hact hl
    exact hpend.cutShort (n := crcBytes) (.refl s) hl fun e u he hr => by
      rw [harm hact, decodePayload, decodeTrailer_of_stop he hr]

/-- An arm runs only in a decode in progress (R300). -/
theorem decodeArm_of_not_decodeInProgress {s : State} (hd : ¬ DecodeInProgress s) (cls : FrameClass) (crc : Bool)
    (h : WireHeader) : decodeArm cls crc h s = .refused .noDecodeInProgress := by
  unfold decodeArm
  split
  next tmo hdr got ha => exact absurd (.inl ⟨tmo, hdr, got, ha⟩) hd
  next d ha => exact absurd (.inr ⟨d, ha⟩) hd
  all_goals rfl

/-- A wire instruction runs only in a decode in progress (R300, log 9). -/
theorem exec_wire_of_not_decodeInProgress {i : Instr} {s : State} (hi : i.space = .wire) (hd : ¬ DecodeInProgress s) :
    exec i s = .refused .noDecodeInProgress := by
  cases i with
  | kindCanFrame h | kindCanFrameCrc h | kindCanFdFrame h | kindCanFdFrameCrc h =>
    exact decodeArm_of_not_decodeInProgress hd _ _ h
  | kindUnknown h =>
    rw [exec, execKindUnknown]
    split
    next tmo hdr got ha => exact absurd (.inl ⟨tmo, hdr, got, ha⟩) hd
    next d ha => exact absurd (.inr ⟨d, ha⟩) hd
    all_goals rfl
  | _ => cases hi

/-- Settles O40: none of the three activities is a decode. -/
theorem kindsOutsideDecodeRefused : Obligations.KindsOutsideDecodeRefused := by
  intro i s hi ha
  refine exec_wire_of_not_decodeInProgress hi ?_
  rintro (⟨tmo, hdr, got, hd⟩ | ⟨d, hd⟩) <;> simp [hd] at ha

end Sys2Proof.Machine
end

section
/-! SUPPORT. RECEIVE (spec/42_decoder.md R300 to R302, spec/44_bus.md R401): one equation per way it goes on or stops in
either mode, the whole datagram in terms of the unpacked header, and the proofs of the statements about it. -/

namespace Sys2Proof

open Sys2Proof.Stated

/-- The kind of a class, with or without a trailer (R160). -/
def kindCode (fd crc : Bool) : U16 :=
  match fd, crc with
  | false, false => 0x0080#16
  | false, true => 0x0081#16
  | true, false => 0x0090#16
  | true, true => 0x0091#16

/-- The four kinds select the four instructions (R160). -/
theorem knownKind_kindInstr {h : WireHeader} {fd crc : Bool} (hk : h.frameKind = kindCode fd crc) :
    KnownKind (kindInstr h) h fd crc := by
  cases fd <;> cases crc <;> simp [KnownKind, kindInstr, hk, kindCode]

theorem unpack_frameKind_eq_iff (c : Config) (hdr : Bytes) (k : U16) :
    (unpackHeader c hdr).frameKind = k ↔ kindOf hdr = k.toNat := by
  rw [← BitVec.toNat_inj, unpack_frameKind_toNat]
  rfl

/-- A whole datagram of a class, in terms of its unpacked header (R170, R304, R310). -/
structure WholeFrame (c : Config) (fd crc : Bool) (hdr p trailer : Bytes) : Prop where
  image : hdr.length = c.hdrBytes
  kind : (unpackHeader c hdr).frameKind = kindCode fd crc
  size : (unpackHeader c hdr).frameSize.toNat ≤ maxSize fd
  payload : p.length = payloadLength fd (unpackHeader c hdr)
  trailer : trailer.length = if crc = true then 4 else 0

/-- A whole datagram in the spec's words is one of a class. -/
theorem exists_wholeFrame {c : Config} {hdr p crc : Bytes} (w : WholeDatagram c hdr p crc) :
    ∃ fd b, WholeFrame c fd b hdr p crc := by
  obtain ⟨hl, hw⟩ := w
  rw [← unpack_frameSize_toNat_eq_frameSizeOf (c := c) hl] at hw
  have kind := fun k => (unpack_frameKind_eq_iff c hdr k).2
  obtain ⟨hk, hF, hp, rfl⟩ | ⟨hk, hF, hp, ht⟩ | ⟨hk, hF, hp, rfl⟩ | ⟨hk, hF, hp, ht⟩ := hw
  · exact ⟨false, false, hl, kind 0x0080#16 hk, hF, hp, rfl⟩
  · exact ⟨false, true, hl, kind 0x0081#16 hk, hF, hp, ht⟩
  · exact ⟨true, false, hl, kind 0x0090#16 hk, hF, hp, rfl⟩
  · exact ⟨true, true, hl, kind 0x0091#16 hk, hF, hp, ht⟩

/-- The frame of an unpacked header is that of the image's bytes (R305 to R307). -/
theorem WholeFrame.frameOfHeader_eq {c : Config} {fd crc : Bool} {hdr p trailer : Bytes}
    (w : WholeFrame c fd crc hdr p trailer) (t : Time) :
    frameOfHeader c fd (unpackHeader c hdr) p t = frameOf c hdr p t := by
  have hkind := (unpack_frameKind_eq_iff c hdr _).1 w.kind
  have hfd : decide (0x90 ≤ kindOf hdr) = fd := by rw [hkind]; cases fd <;> cases crc <;> rfl
  have hclassic : decide (kindOf hdr < 0x90) = !fd := by rw [hkind]; cases fd <;> cases crc <;> rfl
  have hext : (unpackHeader c hdr).frameIdRaw.getLsbD 31 = extendedOf c hdr := unpack_extendedId_eq_extendedOf w.image
  simp only [frameOfHeader, frameOf, hfd, hclassic, hext, unpack_frameIdRaw_toNat_eq_idRawOf,
    unpack_frameSize c w.image, unpack_flag_eq_flagOf w.image (show 0 < 8 by decide),
    unpack_flag_eq_flagOf w.image (show 5 < 8 by decide), unpack_flag_eq_flagOf w.image (show 6 < 8 by decide)]
  rfl

end Sys2Proof

namespace Sys2Proof.Machine

open Sys2Proof.Stated

/-! ## How a RECEIVE goes on -/

section stream

variable {tmo : Timeout} {s t : State} (hl : s.life = .opened) (hm : s.cfg.readerMode = .streamLoop)

include hl hm

theorem exec_receive_eq_decodeStream : exec (.receive tmo) s = decodeStream tmo s := by
  simp only [exec, execReceive, hl, hm]

/-- After the header READ a STREAM_LOOP decode goes on as the header's kind (R301). -/
theorem exec_receive_of_read {hdr : Bytes} (hr : readBytes s.cfg.hdrBytes tmo s = (.bytes hdr, t)) :
    exec (.receive tmo) s = exec (kindInstr (unpackHeader s.cfg hdr)) (suspend (.decoding tmo hdr none) t) := by
  have hcfg : t.cfg = s.cfg := congrArg (fun r => r.2.cfg) hr.symm
  rw [exec_receive_eq_decodeStream hl hm, ← dispatchKind_eq_exec]
  simp only [decodeStream, hr, hcfg]

/-- It stops with the header READ (R301). -/
theorem exec_receive_of_stop {e : ReadEnd} (he : ∀ out, e ≠ .bytes out)
    (hr : readBytes s.cfg.hdrBytes tmo s = (e, t)) :
    exec (.receive tmo) s = .next (stopped (.receiving tmo) e t) := by
  rw [exec_receive_eq_decodeStream hl hm]
  cases e with
  | bytes out => exact absurd rfl (he out)
  | _ => simp only [decodeStream, hr, stopped]

/-- A header that is buffered is read without a receive. -/
theorem exec_receive_of_buffered {hdr rest : Bytes} (hh : hdr.length = s.cfg.hdrBytes) (hb : s.buf = hdr ++ rest) :
    exec (.receive tmo) s =
      exec (kindInstr (unpackHeader s.cfg hdr)) { s with buf := rest, activity := .decoding tmo hdr none } := by
  have hr := read_buffered s.cfg.hdrBytes tmo s (by rw [hb, List.length_append]; omega)
  rw [hb, ← hh, List.take_left, List.drop_left, hh] at hr
  exact exec_receive_of_read hl hm hr

end stream

theorem rxReceive_of_admits {tmo : Timeout} {s : State} {a : RxAnswer} {as : List RxAnswer}
    (ha : s.rxAnswers = a :: as) (hadm : admits tmo a = true) :
    rxReceive tmo s = some (a, { s with rxAnswers := as }) := by
  simp only [rxReceive, ha, hadm, if_true]

theorem rxReceive_eq_none {tmo : Timeout} {s : State}
    (ha : s.rxAnswers = [] ∨ (tmo = .none ∧ s.rxAnswers.head? = some .timedOut)) : rxReceive tmo s = none := by
  obtain ha | ⟨rfl, ha⟩ := ha
  · simp only [rxReceive, ha]
  · obtain ⟨as, ha⟩ := List.head?_eq_some_iff.1 ha
    simp only [rxReceive, ha, admits, Bool.false_eq_true, if_false]

theorem admits_dgram (tmo : Timeout) (d : Bytes) : admits tmo (.dgram d) = true := by
  cases tmo <;> rfl

theorem admits_sockErr (tmo : Timeout) : admits tmo .sockErr = true := by
  cases tmo <;> rfl

section atomic

variable {tmo : Timeout} {s : State} {as : List RxAnswer} (hl : s.life = .opened)
  (hm : s.cfg.readerMode = .datagramAtomic)

include hl hm

theorem exec_receive_eq_decodeAtomic : exec (.receive tmo) s = decodeAtomic tmo s := by
  simp only [exec, execReceive, hl, hm]

/-- While no answer is given, the RECEIVE waits (R351, log 2). -/
theorem exec_receive_atomic_waiting (ha : s.rxAnswers = [] ∨ (tmo = .none ∧ s.rxAnswers.head? = some .timedOut)) :
    exec (.receive tmo) s = .next (suspend (.receiving tmo) s) := by
  rw [exec_receive_eq_decodeAtomic hl hm]
  simp only [decodeAtomic, rxReceive_eq_none ha]

theorem exec_receive_atomic_timedOut (ht : tmo = .finite) (ha : s.rxAnswers = .timedOut :: as) :
    exec (.receive tmo) s = .next (returnNoFrame .timeout { s with rxAnswers := as }) := by
  subst ht
  rw [exec_receive_eq_decodeAtomic hl hm]
  simp only [decodeAtomic, rxReceive_of_admits (tmo := .finite) ha rfl]

theorem exec_receive_atomic_sockErr (ha : s.rxAnswers = .sockErr :: as) :
    exec (.receive tmo) s = .next (raiseFault .socket { s with rxAnswers := as }) := by
  rw [exec_receive_eq_decodeAtomic hl hm]
  simp only [decodeAtomic, rxReceive_of_admits ha (admits_sockErr tmo)]

/-- A datagram shorter than the header is an underflow (R302). -/
theorem exec_receive_atomic_short {d : Bytes} (ha : s.rxAnswers = .dgram d :: as)
    (hd : (d.take s.cfg.chunkBytes).length < s.cfg.hdrBytes) :
    exec (.receive tmo) s = .next (returnNoFrame .underflow
      (warn (.underflow (d.take s.cfg.chunkBytes).length s.cfg.hdrBytes) { s with rxAnswers := as })) := by
  rw [exec_receive_eq_decodeAtomic hl hm]
  simp only [decodeAtomic, rxReceive_of_admits ha (admits_dgram tmo d), slice_zero, if_pos hd]

/-- After its one receive a DATAGRAM_ATOMIC decode goes on as the kind of the header its datagram begins with (R302). -/
theorem exec_receive_atomic_header {d : Bytes} (ha : s.rxAnswers = .dgram d :: as)
    (hd : s.cfg.hdrBytes ≤ (d.take s.cfg.chunkBytes).length) :
    exec (.receive tmo) s =
      exec (kindInstr (unpackHeader s.cfg ((d.take s.cfg.chunkBytes).take s.cfg.hdrBytes)))
        { s with rxAnswers := as, activity := .parsing (d.take s.cfg.chunkBytes) } := by
  rw [exec_receive_eq_decodeAtomic hl hm, ← dispatchKind_eq_exec]
  simp only [decodeAtomic, rxReceive_of_admits ha (admits_dgram tmo d), slice_zero, if_neg (Nat.not_lt.2 hd)]
  rfl

/-- A `frame_size` over the bound of the header's class faults, however long the datagram is (R302, R310). -/
theorem exec_receive_atomic_oversize {d : Bytes} (ha : s.rxAnswers = .dgram d :: as) {fd crc : Bool}
    (hd : s.cfg.hdrBytes ≤ (d.take s.cfg.chunkBytes).length)
    (hk : kindOf ((d.take s.cfg.chunkBytes).take s.cfg.hdrBytes) = (kindCode fd crc).toNat)
    (hF : maxSize fd < frameSizeOf s.cfg ((d.take s.cfg.chunkBytes).take s.cfg.hdrBytes)) :
    exec (.receive tmo) s =
      .next (faulted (if fd = true then .fdSize else .classicSize) { s with rxAnswers := as }) := by
  have hkind : KnownKind _ _ fd crc := knownKind_kindInstr ((unpack_frameKind_eq_iff s.cfg _ _).2 hk)
  rw [← unpack_frameSize_toNat_eq_frameSizeOf (by rw [List.length_take, Nat.min_eq_left hd])] at hF
  exact (exec_receive_atomic_header hl hm ha hd).trans
    ((oversizedKindsFault _ _ fd crc _ hkind (.inr ⟨_, rfl⟩)).1 hF)

end atomic

/-- Settles O41: each mode hands the unpacked header to the dispatch, which runs the kind's instruction. -/
theorem receiveHandsHeaderToKind : Obligations.ReceiveHandsHeaderToKind := by
  refine fun tmo s i hl => ⟨fun hdr rest hm hh hb hdec => ?_, fun hdr u hm hr hdec => ?_, fun d as hm ha hd hdec => ?_⟩
  all_goals obtain ⟨-, rfl⟩ := decode_wire hdec
  · exact exec_receive_of_buffered hl hm hh hb
  · exact exec_receive_of_read hl hm hr
  · exact exec_receive_atomic_header hl hm ha hd

/-! ## Whole datagrams -/

section whole

variable {s : State} {fd crc : Bool} {hdr p trailer : Bytes} (w : WholeFrame s.cfg fd crc hdr p trailer)
  (hc : s.cfg.Legal) (hl : s.life = .opened)

include w hc hl

/-- A STREAM_LOOP RECEIVE of a whole datagram that is there to read returns its frame and leaves the bytes after it; the
last datagram holds more than those, so it has received all. -/
theorem exec_receive_of_pending (hm : s.cfg.readerMode = .streamLoop) (tmo : Timeout) {ds : List Bytes}
    {rest : List RxAnswer} {left : Bytes} (hpend : Pending s ds rest (hdr ++ p ++ trailer ++ left))
    (hlast : ∀ d, ds.getLast? = some d → left.length < (d.take s.cfg.chunkBytes).length) :
    exec (.receive tmo) s =
      .next (framed (frameOf s.cfg hdr p (Config.timeDraw s.timeDraws)) { s with buf := left, rxAnswers := rest }) := by
  rw [List.append_assoc hdr, List.append_assoc hdr] at hpend
  obtain ⟨t, es, hr, hs, hes, hbody⟩ := hpend.read w.image tmo
  have hk : KnownKind _ _ fd crc := knownKind_kindInstr w.kind
  rw [List.append_assoc p] at hbody
  have hpend' : Pending (suspend (.decoding tmo hdr none) t) es rest (p ++ trailer ++ left) :=
    ⟨hbody.answers, by rw [List.append_assoc]; exact hbody.bytes⟩
  obtain ⟨u, fs, hx, hu, hfs, hend⟩ :=
    exec_kind_of_pending hk (hs.cfg_eq ▸ hc) w.size w.payload w.trailer rfl hpend'
  rw [exec_receive_of_read hl hm hr, ← w.frameOfHeader_eq, hx, hend.eq_setReader hu (hfs.trans hes) ?_, hs]
  · rfl
  · rw [suspend_cfg, hs.cfg_eq]
    exact hlast

/-- A DATAGRAM_ATOMIC RECEIVE of a datagram that begins with a whole one returns its frame. -/
theorem exec_receive_of_datagram (hm : s.cfg.readerMode = .datagramAtomic) (tmo : Timeout) {d extra : Bytes}
    {as : List RxAnswer} (ha : s.rxAnswers = .dgram d :: as)
    (hd : d.take s.cfg.chunkBytes = hdr ++ p ++ trailer ++ extra) :
    exec (.receive tmo) s =
      .next (framed (frameOf s.cfg hdr p (Config.timeDraw s.timeDraws)) { s with rxAnswers := as }) := by
  have hlen := congrArg List.length hd
  simp only [List.length_append] at hlen
  have hhdr : (d.take s.cfg.chunkBytes).take s.cfg.hdrBytes = hdr := by
    rw [hd, List.append_assoc, List.append_assoc]
    exact List.take_left' w.image
  have hpay : ((d.take s.cfg.chunkBytes).drop s.cfg.hdrBytes).take (payloadLength fd (unpackHeader s.cfg hdr)) = p := by
    rw [hd, List.append_assoc, List.append_assoc, List.drop_left' w.image]
    exact List.take_left' w.payload
  have hk : KnownKind _ _ fd crc := knownKind_kindInstr w.kind
  rw [exec_receive_atomic_header hl hm ha (by have := w.image; omega), hhdr,
    exec_kind_of_parsing (s := { s with rxAnswers := as, activity := .parsing (d.take s.cfg.chunkBytes) }) hk hc w.size
      rfl (by have := w.image; have := w.payload; have := w.trailer; simp only; omega),
    hpay, w.frameOfHeader_eq]
  rfl

end whole

/-- Settles O29: the datagram is buffered, so nothing is received. -/
theorem receiveDecodesBufferedDatagram : Obligations.ReceiveDecodesBufferedDatagram := by
  intro tmo s hdr p crc rest hc hl hm hw hb
  obtain ⟨fd, b, w⟩ := exists_wholeFrame hw
  exact exec_receive_of_pending w hc hl hm tmo (hb ▸ Pending.buffered s) (by simp)

/-- Settles O30: a whole datagram is one of a class, and the bytes after it are dropped with it. -/
theorem receiveParsesAtomicDatagram : Obligations.ReceiveParsesAtomicDatagram := by
  intro tmo s d hdr p crc extra as hc hl hm hw ha hd
  obtain ⟨fd, b, w⟩ := exists_wholeFrame hw
  exact exec_receive_of_datagram w hc hl hm tmo ha hd

/-- Settles O35: what is there to read does not depend on how it is cut into datagrams; the last one holds more bytes
than are left over. -/
theorem datagramBoundariesIgnored : Obligations.DatagramBoundariesIgnored := by
  intro tmo s as hc hl hm hb
  refine ⟨fun hdr1 p1 crc1 hdr2 p2 crc2 hw1 hw2 hlen ha => ?_, fun hdr p crc a b hw hab hla hlb hlt ha => ?_⟩
  · obtain ⟨fd1, b1, w1⟩ := exists_wholeFrame hw1
    obtain ⟨fd2, b2, w2⟩ := exists_wholeFrame hw2
    have hpos : 0 < hdr1.length := by rw [w1.image, Config.hdrBytes]; omega
    have hpend : Pending s [_] as (hdr1 ++ p1 ++ crc1 ++ (hdr2 ++ p2 ++ crc2)) :=
      ⟨ha, by rw [hb, chunks_cons, List.take_of_length_le hlen]; simp⟩
    refine ⟨_, exec_receive_of_pending w1 hc hl hm tmo hpend fun d hd => ?_, rfl, ?_⟩
    · rw [← Option.some.inj hd, List.getLast_singleton, List.take_of_length_le hlen]
      simp only [List.length_append]
      omega
    · have hsecond := receiveDecodesBufferedDatagram tmo
        (framed (frameOf s.cfg hdr1 p1 (Config.timeDraw s.timeDraws))
          { s with buf := hdr2 ++ p2 ++ crc2, rxAnswers := as })
        hdr2 p2 crc2 [] hc hl hm hw2 (List.append_nil _).symm
      refine hsecond.trans ?_
      rw [← hb]
      rfl
  · obtain ⟨fd, crc', w⟩ := exists_wholeFrame hw
    have hpend : Pending s [a, b] as (hdr ++ p ++ crc ++ []) :=
      ⟨ha, by simp [hb, List.take_of_length_le hla, List.take_of_length_le hlb, hab]⟩
    rw [exec_receive_of_pending w hc hl hm tmo hpend fun d hd => ?_, ← hb]
    obtain rfl : b = d := Option.some.inj hd
    have himage := w.image
    have hlen := congrArg List.length hab
    simp only [List.length_append, Config.hdrBytes] at hlen himage
    rw [List.take_of_length_le hlb, List.length_nil]
    omega

/-- Settles O32: fewer bytes than a header are there, so the header READ is cut short. -/
theorem streamReceiveWithoutHeader : Obligations.StreamReceiveWithoutHeader :=
  fun _ s _ _ hl hm ha hall => Pending.cutShort ⟨ha, rfl⟩ (.refl s) hall fun _ _ => exec_receive_of_stop hl hm

/-- The instruction of an unknown kind, in a decode of either mode, drops the frame with the warning (R308). -/
theorem exec_kindInstr_of_unknown {c : Config} {hdr : Bytes} {s : State} (hd : DecodeInProgress s)
    (hk : kindOf hdr ∉ [0x80, 0x81, 0x90, 0x91]) :
    exec (kindInstr (unpackHeader c hdr)) s = .next (ended (.noFrame .unknownKind)
      { s with warnlog := s.warnlog ++ [.unknownKind (BitVec.ofNat 16 (kindOf hdr))] }) := by
  have hkind : (unpackHeader c hdr).frameKind.toNat = kindOf hdr := unpack_frameKind_toNat c
  rw [(kindInstr_eq_kindUnknown_iff _).2 (hkind ▸ hk)]
  exact execKindUnknown_of_decodeInProgress hd _

/-- Settles O33: the header READ takes the header, and the kind's arm reads nothing. -/
theorem unknownKindConsumesOnlyHeader : Obligations.UnknownKindConsumesOnlyHeader := by
  intro tmo s hdr rest hl hm hh hk hb
  rw [exec_receive_of_buffered hl hm hh hb, exec_kindInstr_of_unknown (.inl ⟨tmo, hdr, none, rfl⟩) hk]
  rfl

/-- Settles O34: the header is buffered, and the payload READ is the one that is cut short. -/
theorem partialFrameTimeoutKeepsPayload : Obligations.PartialFrameTimeoutKeepsPayload := by
  intro s hdr p crc part as _ hl hm hw hpart hb ha
  obtain ⟨fd, b, w⟩ := exists_wholeFrame hw
  have hk : KnownKind _ _ fd b := knownKind_kindInstr w.kind
  have hcut := exec_kind_cutShort hk (s := { s with buf := part, activity := .decoding .finite hdr none }) w.size rfl
    (Pending.buffered _) (w.payload ▸ hpart)
  rw [exec_receive_of_buffered hl hm w.image hb]
  exact hcut.1 as rfl ha

/-- Settles O31: the answer, the datagram's length, its kind and its size are looked at in this order. -/
theorem atomicReceiveWithoutFrame : Obligations.AtomicReceiveWithoutFrame := by
  intro tmo s as hc hl hm
  refine ⟨fun ht ha => exec_receive_atomic_timedOut hl hm ht ha, exec_receive_atomic_sockErr hl hm, fun d0 ha => ?_⟩
  intro d hdr
  refine ⟨exec_receive_atomic_short hl hm ha, fun hd hk => ?_, fun hd hk hF => ?_, fun hd hk hF => ?_,
    fun p crc hd hw hlt => ?_⟩
  · rw [exec_receive_atomic_header hl hm ha hd, exec_kindInstr_of_unknown (.inr ⟨d, rfl⟩) hk]
    rfl
  · exact hk.elim (exec_receive_atomic_oversize hl hm ha (fd := false) (crc := false) hd · hF)
      (exec_receive_atomic_oversize hl hm ha (fd := false) (crc := true) hd · hF)
  · exact hk.elim (exec_receive_atomic_oversize hl hm ha (fd := true) (crc := false) hd · hF)
      (exec_receive_atomic_oversize hl hm ha (fd := true) (crc := true) hd · hF)
  · obtain ⟨fd, b, w⟩ := exists_wholeFrame hw
    have hk : KnownKind _ _ fd b := knownKind_kindInstr w.kind
    rw [w.payload, w.trailer] at hlt ⊢
    exact (exec_receive_atomic_header hl hm ha hd).trans (exec_kind_of_underflow hk w.size rfl hlt)

end Sys2Proof.Machine
end

section
/-! SUPPORT. The round trip (spec/42_decoder.md R314): the datagram of a valid frame is a whole datagram of its class,
and the frame of its header and payload has the encoded frame's fields. -/

namespace Sys2Proof.Machine

open Sys2Proof.Stated

variable {c : Config} {f : CanFrame}

theorem unpackHeader_packHeader_encodeHeader (c : Config) (f : CanFrame) :
    unpackHeader c (packHeader c (encodeHeader c f)) = encodeHeader c f :=
  unpackHeader_packHeader (Nat.pow_pos (by decide))

/-- The datagram of a valid frame is a whole one without a trailer (R254). -/
theorem wholeFrame_encodeDatagram (c : Config) (hf : Valid f) :
    WholeFrame c f.isFd false (packHeader c (encodeHeader c f)) (encodePayload f) [] where
  image := packHeader_length c _
  kind := by
    rw [unpackHeader_packHeader_encodeHeader, encodeHeader]
    cases f.isFd <;> rfl
  size := by
    obtain ⟨-, -, hclassic, hfd⟩ := hf
    rw [unpackHeader_packHeader_encodeHeader]
    cases hk : f.isFd with
    | false => exact hclassic hk
    | true => exact hfd hk
  payload := by
    rw [unpackHeader_packHeader_encodeHeader, encodePayload_length f ((validForEncode_iff_valid f).2 hf)]
    rfl
  trailer := rfl

/-! ## The fields of the frame -/

/-- The mask drops the bits above the id (R9, R252). -/
theorem encodeIdRaw_mod (hc : c.Legal) (hf : Valid f) :
    (encodeIdRaw f).toNat % 2 ^ c.idBits = f.arbitrationId.toNat % 2 ^ c.idBits := by
  obtain ⟨-, hid, -⟩ := hc
  obtain ⟨m, hm⟩ : ∃ m, 30 = c.idBits + m := Nat.exists_eq_add_of_le (by omega)
  have hraw : (encodeIdRaw f).toNat =
      f.arbitrationId.toNat + 2 ^ 30 * ((!f.isFd && f.remoteFrame).toNat + 2 * f.extendedId.toNat) := by
    rw [encodeIdRaw_toNat f hf.1]
    ring
  rw [hraw, hm, pow_add, mul_assoc, Nat.add_mul_mod_self_left]

theorem encodeIdRaw_bit31 (hf : Valid f) : (encodeIdRaw f).getLsbD 31 = f.extendedId := by
  have hid : f.arbitrationId.getLsbD 31 = false := Nat.testBit_lt_two_pow (hf.1.trans (by decide))
  simp only [encodeIdRaw, BitVec.getLsbD_or, maskIf_getLsbD, hid]
  simp

theorem encodeFlags_bit5 (c : Config) (f : CanFrame) : (encodeFlags c f).getLsbD 5 = f.bitrateSwitch := by
  simp only [encodeFlags, BitVec.getLsbD_or, maskIf_getLsbD]
  simp

theorem encodeFlags_bit6 (c : Config) (f : CanFrame) : (encodeFlags c f).getLsbD 6 = f.errorFrame := by
  simp only [encodeFlags, BitVec.getLsbD_or, maskIf_getLsbD]
  simp

theorem encodePayload_take (hf : Valid f) : (encodePayload f).take f.dlc.toNat = f.data := by
  obtain ⟨-, hlen, -⟩ := hf
  rw [encodePayload_eq]
  exact List.take_left' hlen

/-- The frame a decode builds of a valid frame's header and payload, field by field (R314). -/
theorem frameOfHeader_encodeHeader (hc : c.Legal) (hf : Valid f) (t : Time) :
    frameOfHeader c f.isFd (encodeHeader c f) (encodePayload f) t =
      { arbitrationId := BitVec.ofNat 32 (f.arbitrationId.toNat % 2 ^ c.idBits), dlc := f.dlc, data := f.data
        extendedId := f.extendedId, remoteFrame := !f.isFd && f.remoteFrame, errorFrame := f.isFd && f.errorFrame
        isFd := f.isFd, bitrateSwitch := f.isFd && f.bitrateSwitch, timestamp := some t } := by
  simp only [frameOfHeader, encodeHeader, encodeIdRaw_mod hc hf, encodePayload_take hf, encodeIdRaw_bit31 hf,
    encodeFlags_bit0, encodeFlags_bit5, encodeFlags_bit6]
  cases f.isFd <;> simp

/-- A RECEIVE of the datagram of a valid frame, in either mode (R314). -/
theorem exec_receive_of_encodeDatagram {s : State} {tmo : Timeout} {as : List RxAnswer} (hc : s.cfg.Legal)
    (hf : Valid f) (hl : s.life = .opened) (hb : s.buf = []) (hfit : (encodeDatagram s.cfg f).length ≤ s.cfg.chunkBytes)
    (ha : s.rxAnswers = .dgram (encodeDatagram s.cfg f) :: as) :
    exec (.receive tmo) s =
      .next (framed (frameOfHeader s.cfg f.isFd (encodeHeader s.cfg f) (encodePayload f)
        (Config.timeDraw s.timeDraws)) { s with rxAnswers := as }) := by
  have w := wholeFrame_encodeDatagram s.cfg hf
  have hbytes : (encodeDatagram s.cfg f).take s.cfg.chunkBytes =
      packHeader s.cfg (encodeHeader s.cfg f) ++ encodePayload f ++ [] ++ [] := by
    rw [List.take_of_length_le hfit, List.append_nil, List.append_nil, encodeDatagram]
  rw [← unpackHeader_packHeader_encodeHeader s.cfg f, w.frameOfHeader_eq]
  cases hm : s.cfg.readerMode with
  | streamLoop =>
    have hpend : Pending s [encodeDatagram s.cfg f] as
        (packHeader s.cfg (encodeHeader s.cfg f) ++ encodePayload f ++ [] ++ []) :=
      ⟨ha, by rw [hb, chunks_cons, hbytes, chunks_nil, List.nil_append, List.append_nil]⟩
    rw [exec_receive_of_pending w hc hl hm tmo hpend fun d hd => ?_, ← hb]
    rw [← Option.some.inj hd, List.getLast_singleton, hbytes]
    simp [Config.hdrBytes]
  | datagramAtomic => exact exec_receive_of_datagram w hc hl hm tmo ha hbytes

/-- Settles O43: the datagram is a whole one, and each field the decode reads of it is the one the encoder wrote. -/
theorem roundTripOfValidFrames : Obligations.RoundTripOfValidFrames := by
  intro f tmo s as hc hf hl hb hfit ha
  refine ⟨_, _, exec_receive_of_encodeDatagram hc hf hl hb hfit ha, rfl, hb, rfl, ?_⟩
  rw [frameOfHeader_encodeHeader hc hf]
  refine ⟨?_, rfl, rfl, rfl, rfl, fun hfd => by simp [hfd], fun hfd => by simp [hfd]⟩
  rw [BitVec.toNat_ofNat, Nat.mod_eq_of_lt ((Nat.mod_le ..).trans_lt f.arbitrationId.isLt)]

end Sys2Proof.Machine
end

section
/-! SUPPORT. The step by what it finds to do (spec/20_memory.md R110, spec/60_exceptions.md R504, R505,
spec/70_reset_and_hazards.md R600, R612), and the proofs of the statements about it. -/

namespace Sys2Proof.Machine

open Sys2Proof.Stated

section usable

variable {s : State} (hu : s.usable)

include hu

theorem step_of_nothing (ha : s.activity = .idle) (hc : s.commands = []) : step s = .next s := by
  obtain ⟨hf, hr⟩ := hu
  simp only [step, fetch, hf, hr, ha, hc]

theorem step_of_decoding {tmo : Timeout} {hdr : Bytes} {got : Option Bytes} {i : Instr}
    (ha : s.activity = .decoding tmo hdr got) (hd : decode s.cfg .wire hdr = .ok i) : step s = exec i s := by
  obtain ⟨hf, hr⟩ := hu
  simp only [step, fetch, fetchedOf, hf, hr, ha, hd]

theorem step_of_parsing {d : Bytes} {i : Instr} (ha : s.activity = .parsing d)
    (hd : decode s.cfg .wire (slice d 0 s.cfg.hdrBytes) = .ok i) : step s = exec i s := by
  obtain ⟨hf, hr⟩ := hu
  simp only [step, fetch, fetchedOf, hf, hr, ha, hd]

theorem step_of_sending {f : CanFrame} (ha : s.activity = .sending f) : step s = exec (.send f) s := by
  obtain ⟨hf, hr⟩ := hu
  simp only [step, fetch, hf, hr, ha]

theorem step_of_receiving {tmo : Timeout} (ha : s.activity = .receiving tmo) : step s = exec (.receive tmo) s := by
  obtain ⟨hf, hr⟩ := hu
  simp only [step, fetch, hf, hr, ha]

end usable

theorem step_of_fault {s : State} {c : FaultCode} (hf : s.fault = some c) : step s = .fault (.blockFaulted c) := by
  simp only [step, hf]

theorem step_of_refused {s : State} {r : RefuseReason} (hf : s.fault = none) (hr : s.refused = some r) :
    step s = .refused (.blockRefused r) := by
  simp only [step, hf, hr]

/-- Settles O9: with nothing in progress the oldest command is fetched. -/
theorem stepRunsDecodedCommand : Obligations.StepRunsDecodedCommand :=
  fun _ _ _ _ hu ha hc hd => step_of_decode_ok hu ha hc hd

/-- Settles O10: with an operation in progress its own instruction is fetched. -/
theorem stepContinuesOperation : Obligations.StepContinuesOperation := fun _ hu =>
  ⟨fun _ _ _ _ => step_of_decoding hu, fun _ _ => step_of_parsing hu, fun _ => step_of_sending hu,
    fun _ => step_of_receiving hu⟩

/-- Settles O11: the marks are looked at before anything is fetched. -/
theorem markedBlockHasNoStep : Obligations.MarkedBlockHasNoStep := fun _ =>
  ⟨fun _ => step_of_fault, fun _ => step_of_refused, fun _ h => (step_ends h).1⟩

/-- Settles O12: nothing is fetched, and a run that ended well has nothing left to fetch. -/
theorem idleBlockWaits : Obligations.IdleBlockWaits := by
  refine ⟨fun s hu ha hc => step_of_nothing hu ha hc, fun s hs => ?_⟩
  obtain ⟨hc, ha, -, hu⟩ := hs
  exact step_of_nothing hu ha hc

/-- Settles O23: a transmit without an answer suspends the SEND. -/
theorem sendWaitsForTransmitAnswer : Obligations.SendWaitsForTransmitAnswer := by
  intro f s hf hl ha
  have hwait : transmit f s = suspend (.sending f) s := by simp only [transmit, ha]
  exact (execSend_of_valid hl hf).trans (congrArg _ hwait)

end Sys2Proof.Machine
end

section
/-! SUPPORT. What an instruction writes and how it ends, over all instructions (spec/20_memory.md R109, R110,
spec/42_decoder.md R309, spec/44_bus.md R400 to R405, spec/60_exceptions.md R500, R516): one lemma over the ends of a
decode, from which each statement is read off, and the proofs of those statements. -/

namespace Sys2Proof.Machine

open Sys2Proof.Stated

/-- How a RECEIVE or a frame kind can end, in terms of the state it began in: after its reads it waits, or answers no
frame, a fault or one frame. An underflow is met outside STREAM_LOOP mode only. -/
inductive DecodeEnds (s : State) : State → Prop where
  | waits (b : Bytes) (as : List RxAnswer) (a : Activity) (hs : as <:+ s.rxAnswers) (ha : a ≠ .idle) :
      DecodeEnds s (suspend a (setReader b as s))
  | timeout (b : Bytes) (as : List RxAnswer) (hs : as <:+ s.rxAnswers) :
      DecodeEnds s (returnNoFrame .timeout (setReader b as s))
  | unknown (b : Bytes) (as : List RxAnswer) (k : U16) (hs : as <:+ s.rxAnswers) :
      DecodeEnds s (returnNoFrame .unknownKind (warn (.unknownKind k) (setReader b as s)))
  | underflow (b : Bytes) (as : List RxAnswer) (got need : Nat) (hs : as <:+ s.rxAnswers)
      (hm : Parsing s ∨ s.cfg.readerMode = .datagramAtomic) :
      DecodeEnds s (returnNoFrame .underflow (warn (.underflow got need) (setReader b as s)))
  | fault (b : Bytes) (as : List RxAnswer) (c : FaultCode) (hs : as <:+ s.rxAnswers) :
      DecodeEnds s (raiseFault c (setReader b as s))
  | frame (b : Bytes) (as : List RxAnswer) (g : CanFrame) (hs : as <:+ s.rxAnswers) :
      DecodeEnds s (returnOk (.frame g) (drawTime (setReader b as s)))

theorem Reads.exists_setReader {s u : State} (h : Reads s u) : ∃ b as, as <:+ s.rxAnswers ∧ u = setReader b as s :=
  ⟨u.buf, u.rxAnswers, h.front, h.only⟩

theorem ArmEnds.decodeEnds {cls : FrameClass} {h : WireHeader} {s t : State} (e : ArmEnds cls h s t) :
    DecodeEnds s t := by
  cases e with
  | waits u tmo hdr got _ hu =>
    obtain ⟨b, as, hs, rfl⟩ := hu.exists_setReader
    exact .waits b as _ hs nofun
  | timeout u hu =>
    obtain ⟨b, as, hs, rfl⟩ := hu.exists_setReader
    exact .timeout b as hs
  | fault u c hu =>
    obtain ⟨b, as, hs, rfl⟩ := hu.exists_setReader
    exact .fault b as c hs
  | underflow d got need ha => exact .underflow s.buf s.rxAnswers got need (List.suffix_refl _) (.inl ⟨d, ha⟩)
  | frame u p hu =>
    obtain ⟨b, as, hs, rfl⟩ := hu.exists_setReader
    exact .frame b as _ hs

theorem KindEnds.decodeEnds {h : WireHeader} {s t : State} (e : KindEnds h s t) : DecodeEnds s t := by
  cases e with
  | arm _ _ he => exact he.decodeEnds
  | unknown => exact .unknown s.buf s.rxAnswers h.frameKind (List.suffix_refl _)

/-- A kind that a RECEIVE hands its header to ends as an end of the RECEIVE. -/
theorem DecodeEnds.of_suspend {s t : State} {a : Activity} {b : Bytes} {as : List RxAnswer}
    (hs : as <:+ s.rxAnswers) (hm : Parsing (suspend a (setReader b as s)) → s.cfg.readerMode = .datagramAtomic)
    (e : DecodeEnds (suspend a (setReader b as s)) t) : DecodeEnds s t := by
  cases e with
  | waits b' as' a' hs' ha => exact .waits b' as' a' (hs'.trans hs) ha
  | timeout b' as' hs' => exact .timeout b' as' (hs'.trans hs)
  | unknown b' as' k hs' => exact .unknown b' as' k (hs'.trans hs)
  | underflow b' as' got need hs' hm' => exact .underflow b' as' got need (hs'.trans hs) (.inr (hm'.elim hm id))
  | fault b' as' c hs' => exact .fault b' as' c (hs'.trans hs)
  | frame b' as' g hs' => exact .frame b' as' g (hs'.trans hs)

theorem ReceiveEnds.decodeEnds {s t : State} (e : ReceiveEnds s t) : DecodeEnds s t := by
  cases e with
  | closed => exact .fault s.buf s.rxAnswers .closed (List.suffix_refl _)
  | waits u tmo hu =>
    obtain ⟨b, as, hs, rfl⟩ := hu.exists_setReader
    exact .waits b as _ hs nofun
  | timeout u hu =>
    obtain ⟨b, as, hs, rfl⟩ := hu.exists_setReader
    exact .timeout b as hs
  | socket u hu =>
    obtain ⟨b, as, hs, rfl⟩ := hu.exists_setReader
    exact .fault b as _ hs
  | underflow u got need hu _ hm =>
    obtain ⟨b, as, hs, rfl⟩ := hu.exists_setReader
    exact .underflow b as got need hs (.inr hm)
  | stream u _ tmo hdr hu _ _ _ hx =>
    obtain ⟨b, as, hs, rfl⟩ := hu.exists_setReader
    exact (dispatchKind_ends hx).decodeEnds.of_suspend hs fun hp => absurd hp (not_parsing rfl)
  | atomic u _ d hu _ hm _ _ hx =>
    obtain ⟨b, as, hs, rfl⟩ := hu.exists_setReader
    exact (dispatchKind_ends hx).decodeEnds.of_suspend hs fun _ => hm

theorem exec_receive_ends {tmo : Timeout} {s t : State} (hx : exec (.receive tmo) s = .next t) : DecodeEnds s t :=
  (execReceive_ends hx).decodeEnds

/-! ## One outcome -/

/-- The fault mark after a result: only a fault sets it (R500, R502). -/
def Result.faultMark (old : Option FaultCode) : Result → Option FaultCode
  | .fault c => some c
  | _ => old

/-- The refusal mark after a result: only a refusal sets it (R500, R503). -/
def Result.refusedMark (old : Option RefuseReason) : Result → Option RefuseReason
  | .refused q => some q
  | _ => old

/-- The operation ended with the one result `r`, which alone decides the marks (R500). -/
structure EndedWith (r : Result) (s t : State) : Prop where
  results : t.results = s.results ++ [r]
  activity : t.activity = .idle
  fault : t.fault = r.faultMark s.fault
  refused : t.refused = r.refusedMark s.refused

/-- The operation stays in progress (log 7). -/
structure InProgress (s t : State) : Prop where
  results : t.results = s.results
  activity : t.activity ≠ .idle
  fault : t.fault = s.fault
  refused : t.refused = s.refused

theorem DecodeEnds.outcome {s t : State} (e : DecodeEnds s t) :
    InProgress s t ∨ ∃ r, EndedWith r s t ∧ ((∃ v, receiveView r = some v) ∨ ∃ c, r = .fault c) := by
  cases e with
  | waits b as a _ ha => exact .inl ⟨rfl, ha, rfl, rfl⟩
  | timeout | unknown | underflow => exact .inr ⟨.noFrame _, ⟨rfl, rfl, rfl, rfl⟩, .inl ⟨none, rfl⟩⟩
  | fault b as c => exact .inr ⟨.fault c, ⟨rfl, rfl, rfl, rfl⟩, .inr ⟨c, rfl⟩⟩
  | frame b as g => exact .inr ⟨.ok (.frame g), ⟨rfl, rfl, rfl, rfl⟩, .inl ⟨some g, rfl⟩⟩

theorem SendEnds.outcome {f : CanFrame} {s t : State} (e : SendEnds f s t) :
    InProgress s t ∨ ∃ r, EndedWith r s t := by
  cases e with
  | closed => exact .inr ⟨.fault .closed, rfl, rfl, rfl, rfl⟩
  | precond => exact .inr ⟨.refused .encodePrecond, rfl, rfl, rfl, rfl⟩
  | waits => exact .inl ⟨rfl, nofun, rfl, rfl⟩
  | sent => exact .inr ⟨.ok .unit, rfl, rfl, rfl, rfl⟩
  | socket => exact .inr ⟨.fault .socket, rfl, rfl, rfl, rfl⟩

/-- Closing the block writes the lifecycle and the buffer at most (R402). -/
theorem closeBlock_eq (s : State) : closeBlock s = { s with life := .closed, buf := (closeBlock s).buf } := by
  cases hl : s.life with
  | opened => rw [closeBlock_of_opened hl]
  | closed => rw [closeBlock_of_closed hl, ← hl]

theorem exec_outcome {i : Instr} {s t : State} (h : exec i s = .next t) : InProgress s t ∨ ∃ r, EndedWith r s t := by
  cases exec_ends h with
  | ok _ v => exact .inr ⟨.ok v, rfl, rfl, rfl, rfl⟩
  | refuse _ r => exact .inr ⟨.refused r, rfl, rfl, rfl, rfl⟩
  | send _ _ he => exact he.outcome
  | receive _ _ he => exact he.decodeEnds.outcome.imp_right fun ⟨r, hr, _⟩ => ⟨r, hr⟩
  | shutdown =>
    rw [closeBlock_eq]
    exact .inr ⟨.ok .unit, rfl, rfl, rfl, rfl⟩
  | kind _ _ _ _ _ he => exact he.decodeEnds.outcome.imp_right fun ⟨r, hr, _⟩ => ⟨r, hr⟩

/-- Settles O46: each end of an instruction is a suspension or one of the four returns. -/
theorem everyOperationEndsInOneOutcome : Obligations.EveryOperationEndsInOneOutcome := by
  intro i s t h
  obtain ⟨hr, ha, hf, hq⟩ | ⟨r, hr, ha, hf, hq⟩ := exec_outcome h
  · exact .inl ⟨hr, ha, hf, hq⟩
  · refine .inr ⟨r, hr, ha, hf.trans ?_, hq.trans ?_⟩ <;> cases r <;> rfl

/-- Settles O52: a decode ends with a frame, no frame or a fault. -/
theorem receiveAnswersFrameOrNone : Obligations.ReceiveAnswersFrameOrNone := by
  intro tmo s t r hx hr
  obtain hw | ⟨q, hq, hshown⟩ := (exec_receive_ends hx).outcome
  · rw [hw.results] at hr
    simp at hr
  · have hrq := List.append_cancel_left (hq.results.symm.trans hr)
    exact List.singleton_inj.1 hrq ▸ hshown

/-! ## What is written -/

/-- A decode writes none of these. -/
structure DecodeKeeps (s t : State) : Prop where
  cfg : t.cfg = s.cfg
  commands : t.commands = s.commands
  life : t.life = s.life
  txlog : t.txlog = s.txlog
  txAnswers : t.txAnswers = s.txAnswers

theorem DecodeEnds.keeps {s t : State} (e : DecodeEnds s t) : DecodeKeeps s t := by
  cases e <;> exact ⟨rfl, rfl, rfl, rfl, rfl⟩

/-- A command other than RECEIVE writes no state of the decoder; it writes the lifecycle and the buffer as SHUTDOWN and
the transmit port as SEND only. -/
structure CommandKeeps (i : Instr) (s t : State) : Prop where
  cfg : t.cfg = s.cfg
  commands : t.commands = s.commands
  warnlog : t.warnlog = s.warnlog
  rxAnswers : t.rxAnswers = s.rxAnswers
  timeDraws : t.timeDraws = s.timeDraws
  life : t.life ≠ s.life → i = .shutdown
  buf : t.buf ≠ s.buf → i = .shutdown
  transmits : t.txlog ≠ s.txlog ∨ t.txAnswers ≠ s.txAnswers → ∃ f, i = .send f

/-- An instruction keeps what a decode keeps, or what every other command keeps. -/
theorem exec_keeps {i : Instr} {s t : State} (h : exec i s = .next t) :
    (((∃ tmo, i = .receive tmo) ∨ i.space = .wire) ∧ DecodeEnds s t) ∨ CommandKeeps i s t := by
  cases exec_ends h with
  | ok | refuse => exact .inr ⟨rfl, rfl, rfl, rfl, rfl, absurd rfl, absurd rfl, by simp⟩
  | send f _ he =>
    refine .inr ?_
    cases he <;> exact ⟨rfl, rfl, rfl, rfl, rfl, absurd rfl, absurd rfl, fun _ => ⟨f, rfl⟩⟩
  | receive tmo _ he => exact .inl ⟨.inl ⟨tmo, rfl⟩, he.decodeEnds⟩
  | shutdown =>
    rw [closeBlock_eq]
    exact .inr ⟨rfl, rfl, rfl, rfl, rfl, fun _ => rfl, fun _ => rfl, by simp⟩
  | kind _ _ _ hi _ he => exact .inl ⟨.inr hi, he.decodeEnds⟩

/-- Settles O47: a decode keeps the transmit port and the lifecycle, another command the state of the decoder. -/
theorem onlyTheseInstructionsWrite : Obligations.OnlyTheseInstructionsWrite := by
  intro i s t h
  obtain ⟨hi, he⟩ | k := exec_keeps h
  · obtain ⟨hcfg, hcmd, hlife, hlog, hans⟩ := he.keeps
    exact ⟨hcfg, hcmd, absurd hlife, fun hx => absurd hx (by simp [hlog, hans]), fun _ => hi,
      fun _ => hi.imp_right .inr⟩
  · refine ⟨k.cfg, k.commands, k.life, k.transmits, fun hx => absurd hx ?_, fun hx => .inr (.inl (k.buf hx))⟩
    simp [k.warnlog, k.rxAnswers, k.timeDraws]

/-! ## What every step does -/

/-- A step leaves the block as it is, or takes at most a command and then refuses its operands or runs one
instruction. -/
theorem step_runs {s t : State} (h : step s = .next t) :
    t = s ∨ ∃ rest, rest <:+ s.commands ∧
      (t = refuse .badOperand { s with commands := rest } ∨ ∃ i, exec i { s with commands := rest } = .next t) := by
  have running {i : Instr} (hx : exec i s = .next t) : ∃ rest, rest <:+ s.commands ∧
      (t = refuse .badOperand { s with commands := rest } ∨ ∃ i, exec i { s with commands := rest } = .next t) :=
    ⟨s.commands, List.suffix_refl _, .inr ⟨i, hx⟩⟩
  obtain ⟨-, he⟩ := step_ends h
  cases he with
  | idle => exact .inl rfl
  | command cmd rest i _ _ hc _ hx => exact .inr ⟨rest, hc ▸ List.suffix_cons cmd rest, .inr ⟨i, hx⟩⟩
  | badOperand cmd rest _ hc => exact .inr ⟨rest, hc ▸ List.suffix_cons cmd rest, .inl rfl⟩
  | sending _ _ _ hx => exact .inr (running hx)
  | receiving _ _ _ hx => exact .inr (running hx)
  | decoding _ _ _ _ _ _ hx => exact .inr (running hx)
  | parsing _ _ _ hx => exact .inr (running hx)

/-- The logs grow at their end and the queues are taken from their front (R56, R57, R110). -/
structure Grows (s t : State) : Prop where
  warnlog : s.warnlog <+: t.warnlog
  txlog : s.txlog <+: t.txlog
  results : s.results <+: t.results
  commands : t.commands <:+ s.commands
  rxAnswers : t.rxAnswers <:+ s.rxAnswers
  txAnswers : t.txAnswers <:+ s.txAnswers

theorem DecodeEnds.grows {s t : State} (e : DecodeEnds s t) : Grows s t := by
  cases e with
  | waits _ _ _ hs | timeout _ _ hs | unknown _ _ _ hs | underflow _ _ _ _ hs | fault _ _ _ hs | frame _ _ _ hs =>
    exact ⟨by simp, by simp, by simp, by simp, by simpa using hs, by simp⟩

theorem SendEnds.grows {f : CanFrame} {s t : State} (e : SendEnds f s t) : Grows s t := by
  cases e with
  | closed | precond | waits => constructor <;> simp
  | sent as _ _ ha | socket as _ _ ha => constructor <;> simp [ha]

theorem exec_grows {i : Instr} {s t : State} (h : exec i s = .next t) : Grows s t := by
  cases exec_ends h with
  | ok | refuse => constructor <;> simp
  | send _ _ he => exact he.grows
  | receive _ _ he => exact he.decodeEnds.grows
  | shutdown =>
    rw [closeBlock_eq]
    constructor <;> simp
  | kind _ _ _ _ _ he => exact he.decodeEnds.grows

/-- Settles O48: an instruction appends to the logs and takes from the fronts, and so does taking a command. -/
theorem logsOnlyGrow : Obligations.LogsOnlyGrow := by
  intro s t h
  obtain rfl | ⟨rest, hrest, rfl | ⟨i, hx⟩⟩ := step_runs h
  · simp
  · simpa using hrest
  · obtain ⟨hw, htx, hr, hc, hrx, hans⟩ := exec_grows hx
    exact ⟨hw, htx, hr, hc.trans hrest, hrx, hans⟩

theorem frameCount_append_frame (rs : List Result) (g : CanFrame) :
    frameCount (rs ++ [.ok (.frame g)]) = frameCount rs + 1 := by
  simp [frameCount, List.filter_append]

theorem frameCount_append_other (rs : List Result) {r : Result} (hr : ∀ g, r ≠ .ok (.frame g)) :
    frameCount (rs ++ [r]) = frameCount rs := by
  match r, hr with
  | .ok (.frame g), hr => exact absurd rfl (hr g)
  | .ok (.bytes _), _ | .ok (.bool _), _ | .ok (.word _), _ | .ok (.text _), _ | .ok .unit, _ | .noFrame _, _
  | .fault _, _ | .refused _, _ => simp [frameCount, List.filter_append]

/-- As many time draws are made as frames are answered (R309). -/
def DrawsMatchFrames (s t : State) : Prop :=
  t.timeDraws + frameCount s.results = s.timeDraws + frameCount t.results

theorem DecodeEnds.drawsMatchFrames {s t : State} (e : DecodeEnds s t) : DrawsMatchFrames s t := by
  unfold DrawsMatchFrames
  cases e with
  | waits => rfl
  | timeout | unknown | underflow | fault => simp [frameCount_append_other]
  | frame =>
    simp only [returnOk_results, returnOk_timeDraws, drawTime_results, drawTime_timeDraws, setReader_results,
      setReader_timeDraws, frameCount_append_frame]
    omega

theorem SendEnds.drawsMatchFrames {f : CanFrame} {s t : State} (e : SendEnds f s t) : DrawsMatchFrames s t := by
  unfold DrawsMatchFrames
  cases e <;> simp [frameCount_append_other]

theorem exec_drawsMatchFrames {i : Instr} {s t : State} (h : exec i s = .next t) : DrawsMatchFrames s t := by
  cases exec_ends h with
  | ok _ v _ hv => simp [DrawsMatchFrames, frameCount_append_other, hv]
  | refuse => simp [DrawsMatchFrames, frameCount_append_other]
  | send _ _ he => exact he.drawsMatchFrames
  | receive _ _ he => exact he.decodeEnds.drawsMatchFrames
  | shutdown =>
    rw [closeBlock_eq]
    simp [DrawsMatchFrames, frameCount_append_other]
  | kind _ _ _ _ _ he => exact he.decodeEnds.drawsMatchFrames

/-- Settles O49: the one end that draws the time is the one that answers a frame. -/
theorem oneTimeDrawPerFrame : Obligations.OneTimeDrawPerFrame := by
  intro s t h
  obtain rfl | ⟨rest, -, rfl | ⟨i, hx⟩⟩ := step_runs h
  · rfl
  · simp [frameCount_append_other]
  · exact exec_drawsMatchFrames (s := { s with commands := rest }) hx

/-- No underflow is answered or warned of that was not there before (R516). -/
structure NoNewUnderflow (s t : State) : Prop where
  results : .noFrame .underflow ∈ t.results → .noFrame .underflow ∈ s.results
  warnlog : ∀ got need, .underflow got need ∈ t.warnlog → .underflow got need ∈ s.warnlog

theorem DecodeEnds.noNewUnderflow {s t : State} (e : DecodeEnds s t) (hm : s.cfg.readerMode = .streamLoop)
    (hp : ¬ Parsing s) : NoNewUnderflow s t := by
  cases e with
  | underflow _ _ _ _ _ h => exact (h.elim hp fun ha => by simp [hm] at ha).elim
  | _ => constructor <;> simp

theorem SendEnds.noNewUnderflow {f : CanFrame} {s t : State} (e : SendEnds f s t) : NoNewUnderflow s t := by
  cases e <;> constructor <;> simp

theorem exec_noNewUnderflow {i : Instr} {s t : State} (h : exec i s = .next t) (hm : s.cfg.readerMode = .streamLoop)
    (hp : ¬ Parsing s) : NoNewUnderflow s t := by
  cases exec_ends h with
  | ok | refuse => constructor <;> simp
  | send _ _ he => exact he.noNewUnderflow
  | receive _ _ he => exact he.decodeEnds.noNewUnderflow hm hp
  | shutdown =>
    rw [closeBlock_eq]
    constructor <;> simp
  | kind _ _ _ _ _ he => exact he.decodeEnds.noNewUnderflow hm hp

theorem Inv.of_decoding {s : State} (h : Inv s) {tmo : Timeout} {hdr : Bytes} {got : Option Bytes}
    (ha : s.activity = .decoding tmo hdr got) :
    s.life = .opened ∧ s.cfg.readerMode = .streamLoop ∧ hdr.length = s.cfg.hdrBytes ∧
      ∀ p, got = some p → (unpackHeader s.cfg hdr).frameSize.toNat ≤ p.length := by
  simpa only [activityOk, ha] using h.active

theorem Inv.of_parsing {s : State} (h : Inv s) {d : Bytes} (ha : s.activity = .parsing d) :
    s.life = .opened ∧ s.cfg.readerMode = .datagramAtomic ∧ s.cfg.hdrBytes ≤ d.length := by
  simpa only [activityOk, ha] using h.active

/-- The invariant rules out a DATAGRAM_ATOMIC decode in STREAM_LOOP mode. -/
theorem Inv.not_parsing {s : State} (h : Inv s) (hm : s.cfg.readerMode = .streamLoop) : ¬ Parsing s := by
  rintro ⟨d, ha⟩
  obtain ⟨-, hatomic, -⟩ := h.of_parsing ha
  simp [hm] at hatomic

/-- Settles O50: an underflow is met by a datagram that is parsed on its own, and no decode of STREAM_LOOP mode is. -/
theorem noUnderflowInStreamMode : Obligations.NoUnderflowInStreamMode := by
  intro s t hi hm h
  obtain rfl | ⟨rest, -, rfl | ⟨i, hx⟩⟩ := step_runs h
  · simp
  · simp
  · obtain ⟨hr, hw⟩ := exec_noNewUnderflow hx hm (hi.not_parsing hm)
    exact ⟨hr, hw⟩

/-! ## One receive of a DATAGRAM_ATOMIC decode -/

theorem exists_decodeArm {s : State} (hd : DecodeInProgress s) (cls : FrameClass) (crc : Bool) (h : WireHeader) :
    ∃ t, decodeArm cls crc h s = .next t := by
  cases hs : checkSize cls h.frameSize with
  | some c => exact ⟨_, decodeArm_of_checkSize hd hs⟩
  | none =>
    obtain ⟨tmo, hdr, got, ha⟩ | ⟨d, ha⟩ := hd
    · exact ⟨_, decodeArm_of_decoding ha hs⟩
    · exact ⟨_, decodeArm_of_parsing ha hs⟩

theorem exists_exec_kindInstr {s : State} (hd : DecodeInProgress s) (h : WireHeader) :
    ∃ t, exec (kindInstr h) s = .next t := by
  unfold kindInstr
  split_ifs
  · exact exists_decodeArm hd _ _ h
  · exact exists_decodeArm hd _ _ h
  · exact exists_decodeArm hd _ _ h
  · exact exists_decodeArm hd _ _ h
  · exact ⟨_, execKindUnknown_of_decodeInProgress hd h⟩

/-- A kind in a DATAGRAM_ATOMIC decode makes no read and ends the operation. -/
theorem KindEnds.of_parsing {h : WireHeader} {s t : State} (e : KindEnds h s t) (hp : Parsing s) :
    t.buf = s.buf ∧ t.rxAnswers = s.rxAnswers ∧ t.activity = .idle := by
  cases e with
  | unknown => exact ⟨rfl, rfl, rfl⟩
  | arm _ _ he =>
    cases he with
    | waits _ _ _ _ _ _ ha => exact absurd hp (not_parsing ha)
    | timeout _ _ hnp => exact absurd hp hnp
    | underflow => exact ⟨rfl, rfl, rfl⟩
    | fault u _ _ hu => rw [hu hp]; exact ⟨rfl, rfl, rfl⟩
    | frame u _ _ hu => rw [hu hp]; exact ⟨rfl, rfl, rfl⟩

/-- Settles O51: by the oldest answer; a datagram's kind makes no receive of its own. -/
theorem atomicReceiveTakesOneAnswer : Obligations.AtomicReceiveTakesOneAnswer := by
  intro tmo s hl hm
  by_cases hwait : s.rxAnswers = [] ∨ (tmo = .none ∧ s.rxAnswers.head? = some .timedOut)
  · exact ⟨_, exec_receive_atomic_waiting hl hm hwait, rfl, .inr ⟨rfl, hwait⟩⟩
  obtain ⟨hne, hto⟩ := not_or.1 hwait
  obtain ⟨a, as, ha⟩ := List.exists_cons_of_ne_nil hne
  cases a with
  | timedOut =>
    have htmo : tmo = .finite := by
      cases tmo with
      | none => exact absurd ⟨rfl, by rw [ha]; rfl⟩ hto
      | finite => rfl
    exact ⟨_, exec_receive_atomic_timedOut hl hm htmo ha, rfl, .inl ⟨_, ha, rfl⟩⟩
  | sockErr => exact ⟨_, exec_receive_atomic_sockErr hl hm ha, rfl, .inl ⟨_, ha, rfl⟩⟩
  | dgram d =>
    rcases Nat.lt_or_ge (d.take s.cfg.chunkBytes).length s.cfg.hdrBytes with hd | hd
    · exact ⟨_, exec_receive_atomic_short hl hm ha hd, rfl, .inl ⟨_, ha, rfl⟩⟩
    · rw [exec_receive_atomic_header hl hm ha hd]
      have hp : Parsing { s with rxAnswers := as, activity := .parsing (d.take s.cfg.chunkBytes) } := ⟨_, rfl⟩
      obtain ⟨t, ht⟩ := exists_exec_kindInstr (.inr hp)
        (unpackHeader s.cfg ((d.take s.cfg.chunkBytes).take s.cfg.hdrBytes))
      obtain ⟨hbuf, hrx, hact⟩ := (dispatchKind_ends ((dispatchKind_eq_exec _ _).trans ht)).of_parsing hp
      exact ⟨t, ht, hbuf, .inl ⟨_, ha.trans (congrArg _ hrx.symm), hact⟩⟩

end Sys2Proof.Machine
end

section
/-! SUPPORT. The invariant of the block (spec/43_reader.md R354, R355, spec/42_decoder.md R313, spec/30_encoding.md
R151, R173, spec/44_bus.md R402): one lemma per operation that keeps it, and the proofs of the statements about it. -/

namespace Sys2Proof.Machine

open Sys2Proof.Stated

/-! ## The operations on the state -/

namespace Inv

variable {s : State} (h : Inv s)

include h

theorem suspend {a : Activity} (ha : activityOk (suspend a s)) : Inv (suspend a s) :=
  { h with active := ha }

/-- An operation may end with any result but a frame that no decode returns. -/
theorem complete {r : Result} (hr : ∀ g, r = .ok (.frame g) → DecodedFrame s.cfg g) : Inv (complete r s) :=
  { h with
    active := trivial
    frames := fun g hg => (List.mem_append.1 hg).elim (h.frames g) fun hg => hr g (List.mem_singleton.1 hg).symm }

theorem returnNoFrame (r : NoFrameReason) : Inv (returnNoFrame r s) :=
  h.complete nofun

theorem warn (w : Warning) : Inv (warn w s) :=
  { h with }

theorem raiseFault (hr : s.refused = none) (c : FaultCode) : Inv (raiseFault c s) :=
  complete (s := { s with fault := some c }) { h with oneMark := .inr hr } nofun

theorem refuse (hf : s.fault = none) (r : RefuseReason) : Inv (refuse r s) :=
  complete (s := { s with refused := some r }) { h with oneMark := .inl hf } nofun

theorem takeCommand (rest : List Bytes) : Inv { s with commands := rest } :=
  { h with }

theorem takeTxAnswer (as : List TxAnswer) : Inv { s with txAnswers := as } :=
  { h with }

/-- A datagram of the encoder's form may be logged (R57). -/
theorem logDatagram {d : Bytes} (hd : SentDatagram d) : Inv { s with txlog := s.txlog ++ [d] } :=
  { h with sent := fun x hx => (List.mem_append.1 hx).elim (h.sent x) fun hx => List.mem_singleton.1 hx ▸ hd }

/-- The reads of a decode keep the invariant of an open block: they keep the buffer's bound, and a DATAGRAM_ATOMIC
decode does not use the buffer (R354, R355). -/
theorem reads {u : State} (hu : Reads s u) (hl : s.life = .opened)
    (hb : s.cfg.readerMode = .datagramAtomic → u.buf = s.buf) : Inv u := by
  have hbound : u.buf.length ≤ max (s.cfg.chunkBytes - 1) 63 := by
    have := hu.bound h.legal
    have := h.bufBound
    omega
  rw [hu.only]
  exact { h with
    bufBound := hbound
    atomicBuf := fun hm => (hb hm).trans (h.atomicBuf hm)
    closedBuf := fun hc => by simp [hl] at hc }

/-- SHUTDOWN drops the buffer as it closes the block (R402). -/
theorem shutdown : Inv (returnOk .unit (closeBlock s)) := by
  rw [closeBlock_eq]
  refine Inv.complete (s := { s with life := .closed, buf := (closeBlock s).buf, activity := .idle }) ?_ nofun
  have hbuf : (closeBlock s).buf = [] := by
    cases hl : s.life with
    | opened => rw [closeBlock_of_opened hl]
    | closed => rw [closeBlock_of_closed hl, h.closedBuf hl]
  exact { h with
    bufBound := by simp [hbuf]
    atomicBuf := fun _ => hbuf
    closedBuf := fun _ => hbuf
    active := trivial }

end Inv

/-! ## What a decode answers and what a SEND transmits -/

/-- A frame built from a header within its class's size bound and a payload that is long enough (R313). -/
theorem decodedFrame_buildFrame {c : Config} {cls : FrameClass} {h : WireHeader} {p : Bytes} (hc : c.Legal)
    (hs : checkSize cls h.frameSize = none) (hp : h.frameSize.toNat ≤ p.length) (t : Time) :
    DecodedFrame c (buildFrame c cls h p t) := by
  have hdata : (slice p 0 h.frameSize.toNat).length = h.frameSize.toNat := by
    rw [slice_length, Nat.min_eq_left hp, Nat.sub_zero]
  have hid : (h.id c).toNat < 2 ^ c.idBits := by
    rw [id_toNat c h hc]
    exact Nat.mod_lt _ (Nat.two_pow_pos _)
  cases cls with
  | classic =>
    have hF : h.frameSize.toNat ≤ 8 := Nat.not_lt.1 fun hlt => by simp [checkSize, maxClassicDlc, hlt] at hs
    exact ⟨hdata, fun _ => hF, nofun, hid, nofun, nofun⟩
  | fd =>
    have hF : h.frameSize.toNat ≤ 64 := Nat.not_lt.1 fun hlt => by simp [checkSize, maxFdDlc, hlt] at hs
    exact ⟨hdata, nofun, fun _ => hF, hid, nofun, fun _ => rfl⟩

/-- The datagram of a valid frame has the encoder's form (R151, R173). -/
theorem sentDatagram_encodeDatagram {c : Config} {f : CanFrame} (hc : c.Legal) (hf : Valid f) :
    SentDatagram (encodeDatagram c f) where
  size := by
    obtain ⟨-, -, hsize⟩ := packetSizeIsDatagramLength c f hc hf
    exact hsize
  kind := by
    have hkind : slice (encodeDatagram c f) 2 4 = [0x00, if f.isFd = true then 0x90 else 0x80] := by
      rw [encodeDatagram_eq_wireImage hc hf]
      simp only [wireImage, List.append_assoc]
      rw [← List.append_assoc]
      exact slice_append _ _ _ 2 4 (be_length ..) (by simp)
    rw [hkind]
    cases f.isFd
    · exact .inl rfl
    · exact .inr rfl

theorem SendEnds.inv {f : CanFrame} {s t : State} (e : SendEnds f s t) (h : Inv s) (hu : s.usable) : Inv t := by
  obtain ⟨hf, hr⟩ := hu
  cases e with
  | closed => exact h.raiseFault hr _
  | precond => exact h.refuse hf _
  | waits hl => exact h.suspend hl
  | sent as _ hv =>
    have hsent := sentDatagram_encodeDatagram h.legal ((validForEncode_iff_valid f).1 hv)
    exact ((h.takeTxAnswer as).logDatagram hsent).complete nofun
  | socket as => exact (h.takeTxAnswer as).raiseFault hr _

theorem Inv.returnFrame {s : State} {cls : FrameClass} {w : WireHeader} {p : Bytes} (h : Inv s)
    (hs : checkSize cls w.frameSize = none) (hp : w.frameSize.toNat ≤ p.length) : Inv (returnFrame cls w p s) := by
  refine Inv.complete (s := drawTime s) { h with } fun g hg => ?_
  cases hg
  exact decodedFrame_buildFrame h.legal hs hp _

/-! ## A decode -/

/-- The header is the one of the image that a STREAM_LOOP decode in progress holds. -/
def HeaderHeld (h : WireHeader) (s : State) : Prop :=
  ∀ tmo hdr got, s.activity = .decoding tmo hdr got → h = unpackHeader s.cfg hdr

theorem Inv.payloadHeld {s : State} {h : WireHeader} (hi : Inv s) (hh : HeaderHeld h s) : PayloadHeld h s := by
  intro tmo hdr p ha
  obtain ⟨-, -, -, hlong⟩ := hi.of_decoding ha
  rw [hh tmo hdr (some p) ha]
  exact hlong p rfl

/-- A decode in progress stands on an open block, and in DATAGRAM_ATOMIC mode it parses a datagram. -/
theorem Inv.of_decodeInProgress {s : State} (hi : Inv s) (hd : DecodeInProgress s) :
    s.life = .opened ∧ (s.cfg.readerMode = .datagramAtomic → Parsing s) := by
  obtain ⟨tmo, hdr, got, ha⟩ | ⟨d, ha⟩ := hd
  · obtain ⟨hl, hm, -⟩ := hi.of_decoding ha
    exact ⟨hl, fun h => by simp [hm] at h⟩
  · obtain ⟨hl, -⟩ := hi.of_parsing ha
    exact ⟨hl, fun _ => ⟨d, ha⟩⟩

theorem Reads.refused_eq {s u : State} (h : Reads s u) : u.refused = s.refused := by
  rw [h.only, setReader_refused]

theorem ArmEnds.inv {cls : FrameClass} {h : WireHeader} {s t : State} (e : ArmEnds cls h s t) (hi : Inv s)
    (hu : s.usable) (hd : DecodeInProgress s) (hh : HeaderHeld h s) : Inv t := by
  obtain ⟨hl, hatomic⟩ := hi.of_decodeInProgress hd
  have hheld := hi.payloadHeld hh
  cases e with
  | waits u tmo hdr got old hr ha hg =>
    obtain ⟨-, hm, hlen, -⟩ := hi.of_decoding ha
    refine (hi.reads hr hl fun h => by simp [hm] at h).suspend ?_
    rw [hr.only]
    exact ⟨hl, hm, hlen, fun p hp => hh tmo hdr old ha ▸ hg p hp hheld⟩
  | timeout u hr hnp => exact (hi.reads hr hl fun hm => absurd (hatomic hm) hnp).returnNoFrame _
  | fault u c hr hsame =>
    exact (hi.reads hr hl fun hm => by rw [hsame (hatomic hm)]).raiseFault (hr.refused_eq.trans hu.2) c
  | underflow => exact (hi.warn _).returnNoFrame _
  | frame u p hr hsame hs hp => exact (hi.reads hr hl fun hm => by rw [hsame (hatomic hm)]).returnFrame hs (hp hheld)

theorem KindEnds.inv {h : WireHeader} {s t : State} (e : KindEnds h s t) (hi : Inv s) (hu : s.usable)
    (hd : DecodeInProgress s) (hh : HeaderHeld h s) : Inv t := by
  cases e with
  | arm _ _ he => exact he.inv hi hu hd hh
  | unknown => exact (hi.warn _).returnNoFrame _

/-- A kind keeps the invariant in a decode of its own header. -/
theorem dispatchKind_inv {h : WireHeader} {s t : State} (hx : dispatchKind h s = .next t) (hi : Inv s) (hu : s.usable)
    (hd : DecodeInProgress s) (hh : HeaderHeld h s) : Inv t :=
  (dispatchKind_ends hx).inv hi hu hd hh

theorem ReceiveEnds.inv {s t : State} (e : ReceiveEnds s t) (hi : Inv s) (hu : s.usable) : Inv t := by
  have usable {u : State} (hr : Reads s u) : u.usable := ⟨hr.fault_eq.trans hu.1, hr.refused_eq.trans hu.2⟩
  cases e with
  | closed => exact hi.raiseFault hu.2 _
  | waits u tmo hr hl hb =>
    refine (hi.reads hr hl hb).suspend ?_
    rw [hr.only]
    exact hl
  | timeout u hr hl hb => exact (hi.reads hr hl hb).returnNoFrame _
  | socket u hr hl hb => exact (hi.reads hr hl hb).raiseFault (usable hr).2 _
  | underflow u _ _ hr hl _ hb => exact ((hi.reads hr hl fun _ => hb).warn _).returnNoFrame _
  | stream u _ tmo hdr hr hl hm hlen hx =>
    have hbegun : activityOk (suspend (.decoding tmo hdr none) u) := by
      rw [hr.only]
      exact ⟨hl, hm, hlen, nofun⟩
    refine dispatchKind_inv hx ((hi.reads hr hl fun h => by simp [hm] at h).suspend hbegun) (usable (u := u) hr)
      (.inl ⟨tmo, hdr, none, rfl⟩) fun _ _ _ ha => ?_
    cases ha
    rw [suspend_cfg, hr.cfg_eq]
  | atomic u _ d hr hl hm hb hlen hx =>
    have hbegun : activityOk (suspend (.parsing d) u) := by
      rw [hr.only]
      exact ⟨hl, hm, hlen⟩
    exact dispatchKind_inv hx ((hi.reads hr hl fun _ => hb).suspend hbegun) (usable (u := u) hr) (.inr ⟨d, rfl⟩) nofun

/-- A command keeps the invariant. -/
theorem exec_command_inv {i : Instr} {s t : State} (hx : exec i s = .next t) (hs : i.space = .command) (hi : Inv s)
    (hu : s.usable) : Inv t := by
  cases exec_ends hx with
  | ok _ v _ hv => exact hi.complete fun g hg => by cases hg; exact absurd rfl (hv g)
  | refuse _ r => exact hi.refuse hu.1 r
  | send _ _ he => exact he.inv hi hu
  | receive _ _ he => exact he.inv hi hu
  | shutdown => exact hi.shutdown
  | kind _ _ _ hw => simp [hs] at hw

/-- The step of a decode in progress keeps the invariant. -/
theorem exec_kindInstr_inv {h : WireHeader} {s t : State} (hx : exec (kindInstr h) s = .next t) (hi : Inv s)
    (hu : s.usable) (hd : DecodeInProgress s) (hh : HeaderHeld h s) : Inv t :=
  dispatchKind_inv ((dispatchKind_eq_exec h s).trans hx) hi hu hd hh

/-- Settles O44: a step ends as one of the operations above, on the command it took or in the decode that was in
progress. -/
theorem stepKeepsInvariant : Obligations.StepKeepsInvariant := by
  intro s t hi h
  obtain ⟨hu, he⟩ := step_ends h
  cases he with
  | idle => exact hi
  | command cmd rest i _ _ _ hd hx =>
    obtain ⟨-, hspace, -⟩ := encode_of_decode_command hd
    exact exec_command_inv (s := { s with commands := rest }) hx hspace (hi.takeCommand rest) hu
  | badOperand cmd rest => exact (hi.takeCommand rest).refuse hu.1 _
  | sending f _ _ hx => exact exec_command_inv hx rfl hi hu
  | receiving tmo _ _ hx => exact exec_command_inv hx rfl hi hu
  | decoding tmo hdr got _ ha _ hx =>
    refine exec_kindInstr_inv hx hi hu (.inl ⟨tmo, hdr, got, ha⟩) fun _ _ _ ha' => ?_
    rw [ha] at ha'
    cases ha'
    rfl
  | parsing d _ ha hx =>
    exact exec_kindInstr_inv hx hi hu (.inr ⟨d, ha⟩) fun _ _ _ ha' => by simp [ha] at ha'

/-- A freshly constructed block with a legal configuration meets the invariant (R71). -/
theorem inv_init {c : Config} (hc : c.Legal) : Inv (State.init c) where
  legal := hc
  bufBound := Nat.zero_le _
  atomicBuf := fun _ => rfl
  closedBuf := nofun
  oneMark := .inl rfl
  active := trivial
  frames := nofun
  sent := nofun

/-- Settles O45: construction succeeds under a legal configuration only, and reset is a construction. -/
theorem constructedBlockMeetsInvariant : Obligations.ConstructedBlockMeetsInvariant := by
  refine ⟨fun c s hs => ?_, inv_init (by decide)⟩
  by_cases hc : c.Legal
  · rw [construct_of_made hc] at hs
    cases hs
    exact inv_init hc
  · rw [construct_of_not_legal hc] at hs
    cases hs

end Sys2Proof.Machine
end
